-- ==== Sys2Proof/Word.lean ====
section
/-! DEFINITION. Word types: bytes, 32-bit header fields and cache slot numbers (00_scope R12). -/

namespace Sys2Proof

/-- A byte, 8 bits (R12). -/
abbrev Byte := BitVec 8

/-- A header field of 32 bits, unsigned (R26, R33). -/
abbrev Word32 := BitVec 32

/-- A slot number of the color cache, 0..63 (R23: "a slot index is 6 bits"). -/
abbrev Slot := Fin 64

end Sys2Proof
end

