-- ==== Sys2Proof/Config.lean ====
section
/-! DEFINITION. What is fixed for a machine: the constants of R10, and the parameters of R11 that the spec leaves
open, which are opaque constants (no proof can see their value). -/

namespace Sys2Proof

/-- The two agents (R7). -/
inductive Agent where
  | enc
  | dec
  deriving DecidableEq, Repr, Inhabited

/-- RUN_MAX, the largest repeat count of one RUN chunk (R10, R84). -/
def Config.runMax : Nat := 62

/-- QOI_HEADER_BYTES (R10). -/
def Config.headerBytes : Nat := 14

/-- MAGIC, "qoif" (R10). -/
def Config.magic : List Byte := [0x71, 0x6F, 0x69, 0x66]

/-- END_MARKER (R10, R88). -/
def Config.endMarker : List Byte := [0x00, 0x00, 0x00, 0x00, 0x00, 0x00, 0x00, 0x01]

/-- ALPHA_DEFAULT, the alpha of every raster pixel (R10, R21). -/
def Config.alphaDefault : Byte := 255

/-- RASTER_CHANNELS, bytes per raster pixel (R10). -/
def Config.rasterChannels : Nat := 3

/-- ENC_CHANNELS, the byte the encoder writes as `channels` (R11, R110, D6). -/
def Config.encChannels : Byte := 3

/-- DELTA_WRAP, OPEN (R11, R197, D2): whether the encoder's channel difference wraps to 8 bits. A free constant
(log 4). -/
opaque Config.deltaWrap : Bool

/-- MAX_PIXELS, OPEN (R11, R203, D8): the largest pixel count a launch may have, or none for unbounded. A free
constant (log 6). -/
opaque Config.maxPixels : Option Nat

/-- Which agent takes the `n`-th step of the machine when both could (R67 fixes no order). A free value (log 7). -/
opaque Config.schedule : Nat → Agent

end Sys2Proof
end

