-- ==== Sys2Proof/Syntax.lean ====
section
/-! DEFINITION. The instructions: one constructor per row of spec/opcode_table.json, operands unbiased as in the
notation of R100. -/

namespace Sys2Proof

/-- A chunk of the QOI stream, or one of its two framing units (R80, R90, R100). -/
inductive Instr where
  /-- `INDEX i` (R81). -/
  | index (slot : Slot)
  /-- `DIFF dr,dg,db`, each -2..1 (R82). -/
  | diff (dr dg db : Int)
  /-- `LUMA dg,dr_dg,db_dg`: -32..31, -8..7, -8..7 (R83). -/
  | luma (dg drDg dbDg : Int)
  /-- `RUN n`, 1..62, the repeat count and not the stored field (R84). -/
  | run (count : Nat)
  /-- `RGB r,g,b` (R85). -/
  | rgb (r g b : Byte)
  /-- `RGBA`, the tag byte alone (R86). -/
  | rgba
  /-- `HDR W,H,ch,cs` (R87). -/
  | hdr (width height : Word32) (channels colorspace : Byte)
  /-- `END`, the end marker (R88). -/
  | endMarker
  deriving DecidableEq, Repr

end Sys2Proof
end

