-- ==== Sys2Proof/WellFormed.lean ====
section
/-! DEFINITION. Which terms of `Instr` are instructions: the operand ranges of R93. -/

namespace Sys2Proof

/-- `in_range(v, lo, hi)`, both ends included (R13, R201). -/
def inRange (v lo hi : Int) : Bool := decide (lo ≤ v) && decide (v ≤ hi)

/-- The operand ranges of R93; INDEX, RGB and HDR operands are bounded by their types. -/
def Instr.wellFormed : Instr → Bool
  | .index _ => true
  | .diff dr dg db => inRange dr (-2) 1 && inRange dg (-2) 1 && inRange db (-2) 1
  | .luma dg drDg dbDg => inRange dg (-32) 31 && inRange drDg (-8) 7 && inRange dbDg (-8) 7
  | .run count => decide (1 ≤ count) && decide (count ≤ Config.runMax)
  | .rgb _ _ _ => true
  | .rgba => true
  | .hdr _ _ _ _ => true
  | .endMarker => true

end Sys2Proof
end

