-- ==== Sys2Proof/Decode.lean ====
section
/-! DEFINITION. The decoder from bytes to instructions (R87 to R94), total and rejecting by name, and after it the
encoder written from the same tables (R81 to R88, R100). -/

namespace Sys2Proof

/-! ## Framing and lengths -/

/-- Which of the three formats stands at a place of the stream: R92, "the only position-dependence is whether a byte
is dispatched at all". -/
inductive Framing where
  | header
  | chunk
  | endMarker
  deriving DecidableEq, Repr

/-- The place of the stream an instruction stands at (R80). -/
def Instr.framing : Instr → Framing
  | .index _ => .chunk
  | .diff _ _ _ => .chunk
  | .luma _ _ _ => .chunk
  | .run _ => .chunk
  | .rgb _ _ _ => .chunk
  | .rgba => .chunk
  | .hdr _ _ _ _ => .header
  | .endMarker => .endMarker

/-- How many bytes must be present for the instruction to run (R89, R164; for RGBA "the check is for the tag byte
only"). -/
def Instr.length : Instr → Nat
  | .index _ => 1
  | .diff _ _ _ => 1
  | .luma _ _ _ => 2
  | .run _ => 1
  | .rgb _ _ _ => 4
  | .rgba => 1
  | .hdr _ _ _ _ => 14
  | .endMarker => 8

/-- The most bytes an instruction of this framing can need. -/
def Framing.window : Framing → Nat
  | .header => 14
  | .chunk => 4
  | .endMarker => 8

/-- Why bytes are no instruction of their framing (R111, R112, R164, R172). -/
inductive DecodeError where
  /-- Fewer bytes than the format needs. -/
  | truncated
  /-- The first four header bytes are not "qoif". -/
  | badMagic
  /-- The eight bytes are not the end marker. -/
  | badEndMarker
  deriving DecidableEq, Repr

/-! ## Fields -/

/-- `v[hi:lo]`, the natural number of bits `hi` down to `lo` (R12). -/
def bits (v : Byte) (hi lo : Nat) : Nat := v.toNat / 2 ^ lo % 2 ^ (hi - lo + 1)

/-- The signed value of an offset-binary field: `f - bias`, never a sign extension (R93). -/
def unbias (bias : Int) (f : Nat) : Int := Int.ofNat f - bias

/-- The stored field of a signed value: `d + bias` (R93). -/
def biased (bias d : Int) : Nat := (d + bias).toNat

/-- DIFF_BIAS (R10). -/
def diffBias : Int := 2

/-- LUMA_G_BIAS (R10). -/
def lumaGBias : Int := 32

/-- LUMA_RB_BIAS (R10). -/
def lumaRbBias : Int := 8

/-- `rd_be32`: four bytes, most significant first (R13, R56). -/
def rdBe32 (b0 b1 b2 b3 : Byte) : Word32 :=
  BitVec.ofNat 32 (b0.toNat * 2 ^ 24 + b1.toNat * 2 ^ 16 + b2.toNat * 2 ^ 8 + b3.toNat)

/-- `be32`: the four bytes of a header field, most significant first (R13, R56). -/
def be32 (v : Word32) : List Byte :=
  [BitVec.ofNat 8 (v.toNat / 2 ^ 24), BitVec.ofNat 8 (v.toNat / 2 ^ 16), BitVec.ofNat 8 (v.toNat / 2 ^ 8),
    BitVec.ofNat 8 v.toNat]

/-! ## Decoding -/

/-- The header, 14 bytes (R87): length before magic (R121), then the fields (R113). -/
def decodeHeader : List Byte → Except DecodeError (Instr × List Byte)
  | m0 :: m1 :: m2 :: m3 :: w0 :: w1 :: w2 :: w3 :: h0 :: h1 :: h2 :: h3 :: ch :: cs :: rest =>
    if [m0, m1, m2, m3] = Config.magic then
      .ok (.hdr (rdBe32 w0 w1 w2 w3) (rdBe32 h0 h1 h2 h3) ch cs, rest)
    else .error .badMagic
  | _ => .error .truncated

/-- The end marker, 8 bytes (R88): length before content (R172, R216). -/
def decodeEnd : List Byte → Except DecodeError (Instr × List Byte)
  | e0 :: e1 :: e2 :: e3 :: e4 :: e5 :: e6 :: e7 :: rest =>
    if [e0, e1, e2, e3, e4, e5, e6, e7] = Config.endMarker then .ok (.endMarker, rest)
    else .error .badEndMarker
  | _ => .error .truncated

/-- `FE r g b`: RGB after its tag (R85). -/
def decodeRgb : List Byte → Except DecodeError (Instr × List Byte)
  | r :: g :: b :: rest => .ok (.rgb r g b, rest)
  | _ => .error .truncated

/-- LUMA after its first byte (R83, R94): the high nibble is `dr_dg` (D20). -/
def decodeLuma (b0 : Byte) : List Byte → Except DecodeError (Instr × List Byte)
  | b1 :: rest =>
    .ok (.luma (unbias lumaGBias (bits b0 5 0)) (unbias lumaRbBias (bits b1 7 4)) (unbias lumaRbBias (bits b1 3 0)), rest)
  | _ => .error .truncated

/-- A chunk: the first-byte map of R89 as R163 tests it, and the fields of R94. -/
def decodeChunk : List Byte → Except DecodeError (Instr × List Byte)
  | [] => .error .truncated
  | b0 :: rest =>
    if b0 = 0xFE then decodeRgb rest
    else if b0 = 0xFF then .ok (.rgba, rest)
    else if bits b0 7 6 = 0 then .ok (.index (Fin.ofNat 64 (bits b0 5 0)), rest)
    else if bits b0 7 6 = 1 then
      .ok (.diff (unbias diffBias (bits b0 5 4)) (unbias diffBias (bits b0 3 2)) (unbias diffBias (bits b0 1 0)), rest)
    else if bits b0 7 6 = 2 then decodeLuma b0 rest
    else .ok (.run (bits b0 5 0 + 1), rest)

/-- Decoding at a place of the stream whose framing is known: the instruction and the bytes after it. -/
def decode : Framing → List Byte → Except DecodeError (Instr × List Byte)
  | .header, bs => decodeHeader bs
  | .chunk, bs => decodeChunk bs
  | .endMarker, bs => decodeEnd bs

/-! ## Encoding -/

/-- The bytes of an instruction (R81 to R88; the formulas of R100). RGBA is its tag byte only. -/
def encode : Instr → List Byte
  | .index slot => [BitVec.ofNat 8 slot.val]
  | .diff dr dg db =>
    [BitVec.ofNat 8 (0x40 + 16 * biased diffBias dr + 4 * biased diffBias dg + biased diffBias db)]
  | .luma dg drDg dbDg =>
    [BitVec.ofNat 8 (0x80 + biased lumaGBias dg),
      BitVec.ofNat 8 (16 * biased lumaRbBias drDg + biased lumaRbBias dbDg)]
  | .run count => [BitVec.ofNat 8 (0xC0 + (count - 1))]
  | .rgb r g b => [0xFE, r, g, b]
  | .rgba => [0xFF]
  | .hdr width height channels colorspace =>
    Config.magic ++ be32 width ++ be32 height ++ [channels, colorspace]
  | .endMarker => Config.endMarker

/-! ## Words of the opcode table -/

/-- `n` bytes of a word whose bit 0 is the least significant bit of the first byte. -/
def bytesLow : Nat → Nat → List Byte
  | 0, _ => []
  | n + 1, w => BitVec.ofNat 8 w :: bytesLow n (w / 256)

/-- The same `n` bytes of a word whose first byte is its most significant one. -/
def bytesHigh (n w : Nat) : List Byte := (bytesLow n w).reverse

/-- The table's header row is 32 bits (its magic) or all 14 bytes. -/
def isHeaderWord (nbits w : Nat) : Bool :=
  (nbits == 32 || nbits == 112) && (w % 2 ^ 32 == 0x716F6966 || w % 2 ^ 32 == 0x66696F71)

/-- The framing and the bytes of a word of spec/opcode_table.json, zero bytes above its `nbits` up to the longest
instruction. The rows HDR and END give their match as ONE big-endian value ("match_applies_to"), so the value is laid
out most significant byte first; the same rows in the byte numbering of the other rows are read too (log 17). -/
def tableBytes (nbits w : Nat) : Framing × List Byte :=
  if nbits = 64 then
    (.endMarker, if w % 2 ^ 64 = 1 then bytesHigh 8 w else bytesLow 8 w)
  else if isHeaderWord nbits w then
    (.header, (if w % 2 ^ 32 = 0x716F6966 then bytesHigh 4 (w % 2 ^ 32) else bytesLow 4 w)
      ++ bytesLow 10 (w % 2 ^ nbits / 2 ^ 32))
  else (.chunk, bytesLow 14 (w % 2 ^ nbits))

/-- The instruction the decoder reads from a word of the opcode table. -/
def decodeTableWord (nbits w : Nat) : Option Instr :=
  match decode (tableBytes nbits w).1 (tableBytes nbits w).2 with
  | .ok (i, _) => some i
  | .error _ => none

end Sys2Proof
end

