-- ==== Sys2Proof/Machine/State.lean ====
section
/-! DEFINITION. The machine's state: the registers of 10_state, the four buffers of 20_memory, and the reasons a step
can stop. -/

namespace Sys2Proof.Machine

/-- A Pixel, four bytes (R20). -/
structure Pixel where
  r : Byte
  g : Byte
  b : Byte
  a : Byte
  deriving DecidableEq, Repr

/-- The zero pixel: what a cache slot holds that nothing has written (CACHE_INIT, R10, R23). -/
def Pixel.zero : Pixel := { r := 0, g := 0, b := 0, a := 0 }

/-- PREV_INIT, the previous pixel before the first (R10, R22, R28). -/
def Pixel.prevInit : Pixel := { r := 0, g := 0, b := 0, a := 255 }

/-- The color cache, 64 slots (R23, R29). -/
abbrev Cache := Vector Pixel 64

/-- The cache at stream start (R42). -/
def Cache.init : Cache := Vector.replicate 64 Pixel.zero

/-- The bytes of one buffer, in the canonical form of `Memory.wf` (Machine/Ops.lean). -/
abbrev Memory := List Host.Cell

/-- One of the four byte arrays (R41, R50): its length (for an output buffer its capacity) and its bytes. -/
structure Buffer where
  len : Nat
  mem : Memory
  deriving DecidableEq, Repr

/-- ENC.phase (R27). -/
inductive EncPhase where
  | idle
  | header
  | pixels
  | endMarker
  | done
  deriving DecidableEq, Repr

/-- DEC.phase (R35). -/
inductive DecPhase where
  | idle
  | header
  | chunks
  | endMarker
  | done
  | fault
  deriving DecidableEq, Repr

/-- DEC.err (R36). -/
inductive ErrKind where
  | none
  | formatError
  | unsupportedChunkError
  deriving DecidableEq, Repr

/-- DEC.err_sub (R36). -/
inductive ErrSub where
  | none
  | badMagic
  | truncated
  | badEndMarker
  | runOverrun
  deriving DecidableEq, Repr

/-- The encoder's registers and buffers (R22 to R27, R41). -/
structure Enc where
  /-- ENC.prev (R22). -/
  prev : Pixel
  /-- ENC.cache (R23). -/
  cache : Cache
  /-- ENC.px_pos (R24). -/
  pxPos : Nat
  /-- ENC.out_pos (R25). -/
  outPos : Nat
  /-- ENC.W (R26). -/
  width : Word32
  /-- ENC.H (R26). -/
  height : Word32
  /-- ENC_COLORSPACE, the byte the host supplies (R110, R256; log 5). -/
  colorspace : Byte
  /-- ENC.phase (R27). -/
  phase : EncPhase
  /-- ENC.PIX (R51). -/
  pix : Buffer
  /-- ENC.OUT (R60). -/
  out : Buffer
  deriving DecidableEq, Repr

/-- The decoder's registers and buffers (R28 to R36, R41); DEC.in_len is `input.len` (R34). -/
structure Dec where
  /-- DEC.prev (R28). -/
  prev : Pixel
  /-- DEC.cache (R29). -/
  cache : Cache
  /-- DEC.in_pos (R30). -/
  inPos : Nat
  /-- DEC.px_count (R31). -/
  pxCount : Nat
  /-- DEC.out_pos (R32). -/
  outPos : Nat
  /-- DEC.W (R33). -/
  width : Word32
  /-- DEC.H (R33). -/
  height : Word32
  /-- DEC.channels (R33). -/
  channels : Byte
  /-- DEC.colorspace (R33). -/
  colorspace : Byte
  /-- DEC.phase (R35). -/
  phase : DecPhase
  /-- DEC.err (R36). -/
  err : ErrKind
  /-- DEC.err_sub (R36). -/
  errSub : ErrSub
  /-- DEC.err_pos (R36). -/
  errPos : Nat
  /-- DEC.IN (R53, R54), with DEC.in_len its length (R34). -/
  input : Buffer
  /-- DEC.OUT (R55, R60). -/
  out : Buffer
  deriving DecidableEq, Repr

/-- The machine: the two agents (R7). -/
structure State where
  /-- The encoder. -/
  enc : Enc
  /-- The decoder. -/
  dec : Dec
  /-- The model's own field: how many steps were taken, the argument of the free schedule (log 7). -/
  tick : Nat
  deriving DecidableEq, Repr

/-- Why the machine stops with a fault. The errors of the spec (R210, R211) are not here: they are NEXT states with
DEC.phase = FAULT. -/
inductive Fault where
  /-- Raised by `Enc.emit` and `Dec.emit`: a write at an address the output buffer does not have (R50, R60). Safe: an
  admitted launch never meets it (R253). -/
  | outOfBounds
  /-- Raised by the encoder's chunk step: ENC.PIX is shorter than its 3*N bytes (R51, R130). Safe: an admitted launch
  never meets it. -/
  | pixOutOfBounds
  /-- Raised by `step` when no agent is running: IDLE, DONE and FAULT have no step (R131, R161, R224). Safe: the machine
  is stuck until a launch. -/
  | noRun
  deriving DecidableEq, Repr

/-- Why something has no meaning. -/
inductive Refusal where
  /-- Raised by `exec` for an instruction the model does not cover. Safe. No arm of this model raises it. -/
  | notModelled (mnemonic : String)
  /-- Raised by the meanings when the decoder's phase dispatches no instruction of this framing (R161, R162). Safe:
  `step` never executes an instruction there. -/
  | notDispatched
  /-- Raised by a launch of an agent that is running (R254, U22). Safe. -/
  | agentRunning
  /-- Raised by an encoder launch whose PIX is not 3*W*H bytes long (R253, U18). Safe. -/
  | pixLength
  /-- Raised by a launch whose output capacity is below the bound (R253, U17). Safe. -/
  | outCapacity
  /-- Raised by a launch whose pixel count is above MAX_PIXELS (R203, R253, U19). Safe. -/
  | maxPixels
  /-- Raised by `encodeRaster` on a byte sequence that is no canonical raster buffer (R118, U21). Safe. -/
  | notCanonicalRaster
  deriving DecidableEq, Repr

/-- The encoder right after a launch with these inputs (R42). -/
def Enc.atLaunch (width height : Word32) (colorspace : Byte) (pix : Buffer) (capacity : Nat) : Enc where
  prev := Pixel.prevInit
  cache := Cache.init
  pxPos := 0
  outPos := 0
  width := width
  height := height
  colorspace := colorspace
  phase := .header
  pix := pix
  out := { len := capacity, mem := [] }

/-- The decoder right after a launch with these inputs (R42). -/
def Dec.atLaunch (input : Buffer) (capacity : Nat) : Dec where
  prev := Pixel.prevInit
  cache := Cache.init
  inPos := 0
  pxCount := 0
  outPos := 0
  width := 0
  height := 0
  channels := 0
  colorspace := 0
  phase := .header
  err := .none
  errSub := .none
  errPos := 0
  input := input
  out := { len := capacity, mem := [] }

/-- The machine right after reset: the post-launch state of both agents (R240, R243), with the empty inputs of log 1:
no pixels, no stream, and the capacities R253 asks for then. -/
def State.reset : State where
  enc := Enc.atLaunch 0 0 0 { len := 0, mem := [] } 22
  dec := Dec.atLaunch { len := 0, mem := [] } 29
  tick := 0

end Sys2Proof.Machine
end

