-- ==== Sys2Proof/Machine/Ops.lean ====
section
/-! DEFINITION. The named operations over memory, buffers, cache, cursors and status: reading and writing bytes,
emitting, the loop test, and raising an error. -/

namespace Sys2Proof.Machine

/-- What a step, a meaning or a launch answers. -/
abbrev Answer (σ : Type) := Host.Outcome σ Fault Refusal

/-- Go on from a next state; a fault or a refusal stops. -/
def andThen {σ τ : Type} (x : Answer σ) (f : σ → Answer τ) : Answer τ :=
  match x with
  | .next s => f s
  | .fault r => .fault r
  | .refused r => .refused r

/-! ## Memory -/

/-- What an address reads as that memory does not list (log 3). -/
def unlistedByte : Byte := 0

/-- The byte at an address. -/
def Memory.read : Memory → Nat → Byte
  | [], _ => unlistedByte
  | (a, b) :: m, x => if x = a then b else Memory.read m x

/-- Store one byte, keeping the canonical form. -/
def Memory.write : Memory → Nat → Byte → Memory
  | [], x, v => if v = unlistedByte then [] else [(x, v)]
  | (a, b) :: m, x, v =>
    if x < a then (if v = unlistedByte then (a, b) :: m else (x, v) :: (a, b) :: m)
    else if x = a then (if v = unlistedByte then m else (x, v) :: m)
    else (a, b) :: Memory.write m x v

/-- Store bytes at ascending addresses (`MemWrite`, R13, R59). -/
def Memory.writeBytes : Memory → Nat → List Byte → Memory
  | m, _, [] => m
  | m, a, b :: bs => Memory.writeBytes (Memory.write m a b) (a + 1) bs

/-- Every address listed is at least `lo`, addresses rise strictly, and no entry is the unlisted byte. -/
def Memory.wfFrom : Nat → Memory → Bool
  | _, [] => true
  | lo, (a, b) :: m => decide (lo ≤ a) && decide (b ≠ unlistedByte) && Memory.wfFrom (a + 1) m

/-- The canonical form of a memory. -/
def Memory.wf (m : Memory) : Bool := Memory.wfFrom 0 m

/-! ## Buffers -/

/-- A buffer is well formed: its memory is canonical and lists only addresses it has (R50). -/
def Buffer.wf (b : Buffer) : Bool := Memory.wf b.mem && b.mem.all fun c => decide (c.1 < b.len)

/-- The buffer that holds exactly these bytes (the host's, R41). -/
def Buffer.ofBytes (bytes : List Byte) : Buffer := { len := bytes.length, mem := Memory.writeBytes [] 0 bytes }

/-- The bytes at `a`, `a + 1`, … that exist, at most `n` of them (R50: an address at or past the length names
nothing). -/
def Buffer.window (b : Buffer) : Nat → Nat → List Byte
  | _, 0 => []
  | a, n + 1 => if a < b.len then Memory.read b.mem a :: b.window (a + 1) n else []

/-- `MemWrite` into a buffer; the caller has checked the bounds. -/
def Buffer.store (b : Buffer) (a : Nat) (bytes : List Byte) : Buffer :=
  { b with mem := Memory.writeBytes b.mem a bytes }

/-! ## The color cache (R194) -/

/-- Read a slot. -/
def Cache.fetch (cache : Cache) (i : Slot) : Pixel := cache[i]

/-- Write a slot, whatever it held. -/
def Cache.store (c : Cache) (i : Slot) (p : Pixel) : Cache := c.set i p

/-! ## Counts and phases -/

/-- ENC.N, the exact product (R26, R203). -/
def Enc.n (e : Enc) : Nat := e.width.toNat * e.height.toNat

/-- DEC.N, the exact product (R33, R203). -/
def Dec.n (d : Dec) : Nat := d.width.toNat * d.height.toNat

/-- The encoder has a step to take (R131). -/
def Enc.running (e : Enc) : Bool := decide (e.phase ≠ .idle) && decide (e.phase ≠ .done)

/-- The decoder has a step to take (R161, R224). -/
def Dec.running (d : Dec) : Bool :=
  decide (d.phase ≠ .idle) && decide (d.phase ≠ .done) && decide (d.phase ≠ .fault)

/-- What the decoder dispatches next (R161, R162): the header, a chunk while pixels are owed, else the end marker. -/
def Dec.framing (d : Dec) : Option Framing :=
  match d.phase with
  | .idle => none
  | .header => some .header
  | .chunks => if d.pxCount < d.n then some .chunk else some .endMarker
  | .endMarker => some .endMarker
  | .done => none
  | .fault => none

/-- "when px_pos = N: phase <- END" (R131; log 9). -/
def Enc.loopTest (e : Enc) : Enc :=
  if e.phase = .pixels ∧ ¬ e.pxPos < e.n then { e with phase := .endMarker } else e

/-- "when px_count = N: phase <- END" (R161, R162; log 9). -/
def Dec.loopTest (d : Dec) : Dec :=
  if d.phase = .chunks ∧ ¬ d.pxCount < d.n then { d with phase := .endMarker } else d

/-! ## Emitting -/

/-- `emit(bytes)` (R13) into ENC.OUT. -/
def Enc.emit (bytes : List Byte) (e : Enc) : Answer Enc :=
  if e.outPos + bytes.length ≤ e.out.len then
    .next { e with out := e.out.store e.outPos bytes, outPos := e.outPos + bytes.length }
  else .fault .outOfBounds

/-- `emit(bytes)` (R13) into DEC.OUT. -/
def Dec.emit (bytes : List Byte) (d : Dec) : Answer Dec :=
  if d.outPos + bytes.length ≤ d.out.len then
    .next { d with out := d.out.store d.outPos bytes, outPos := d.outPos + bytes.length }
  else .fault .outOfBounds

/-! ## Errors -/

/-- The numeric code of DEC.err (R36). -/
def ErrKind.code : ErrKind → Nat
  | .none => 0
  | .formatError => 1
  | .unsupportedChunkError => 2

/-- The numeric code of DEC.err_sub (R36). -/
def ErrSub.code : ErrSub → Nat
  | .none => 0
  | .badMagic => 1
  | .truncated => 2
  | .badEndMarker => 3
  | .runOverrun => 4

/-- Raising an error: the four writes of R220 and nothing else. There is no return from it (R224): the one way on is a
launch, which sets every register anew (`Dec.atLaunch`). -/
def Dec.raise (kind : ErrKind) (sub : ErrSub) (d : Dec) : Dec :=
  { d with err := kind, errSub := sub, errPos := d.inPos, phase := .fault }

/-- The error a fetch meets when the bytes at the cursor are no instruction of their framing (R111, R112, R164, R172). -/
def Dec.raiseDecode (e : DecodeError) (d : Dec) : Dec :=
  match e with
  | .truncated => d.raise .formatError .truncated
  | .badMagic => d.raise .formatError .badMagic
  | .badEndMarker => d.raise .formatError .badEndMarker

/-! ## Acting on one agent -/

/-- Run an operation of the decoder on the machine; the encoder and the step count stay (R7, R67). -/
def State.onDec (s : State) (f : Dec → Answer Dec) : Answer State :=
  andThen (f s.dec) fun d => .next { s with dec := d }

/-- Run an operation of the encoder on the machine; the decoder and the step count stay (R7, R67). -/
def State.onEnc (s : State) (f : Enc → Answer Enc) : Answer State :=
  andThen (f s.enc) fun e => .next { s with enc := e }

/-- A unit of the stream runs where its framing is dispatched (R161) and its bytes are present (R164); else the error,
before any other change. The header stands at stream address 0 (R111), all else at the cursor. -/
def Dec.dispatch (i : Instr) (d : Dec) (body : Dec → Answer Dec) : Answer Dec :=
  if d.framing = some i.framing then
    if (if i.framing = .header then 0 else d.inPos) + i.length ≤ d.input.len then body d
    else .next (d.raise .formatError .truncated)
  else .refused .notDispatched

end Sys2Proof.Machine
end

