-- ==== Sys2Proof/Machine/Operands.lean ====
section
/-! DEFINITION. The arithmetic of pixels and text (43, R13): `wrap8`, `delta`, the hash, the pixels the chunks build,
the bytes they emit, and the raster header. -/

namespace Sys2Proof.Machine

/-- `wrap8(v)`: `v mod 256` (R13). -/
def wrap8 (v : Int) : Byte := BitVec.ofInt 8 v

/-- `sext_8(v)` of a byte (R13). -/
def sext8 (v : Byte) : Int := v.toInt

/-- `delta(x, y)`, the encoder's channel difference, under either value of DELTA_WRAP (R197). -/
def delta (wrap : Bool) (x y : Byte) : Int :=
  if wrap then sext8 (wrap8 (Int.ofNat x.toNat - Int.ofNat y.toNat))
  else Int.ofNat x.toNat - Int.ofNat y.toNat

/-- The decoder's channel addition, modulo 256 (R199). -/
def addChannel (x : Byte) (d : Int) : Byte := wrap8 (Int.ofNat x.toNat + d)

/-- `hash(p)` (R190), the same for both agents (R195). -/
def pxHash (p : Pixel) : Slot :=
  Fin.ofNat 64 (3 * p.r.toNat + 5 * p.g.toNat + 7 * p.b.toNat + 11 * p.a.toNat)

/-- The pixel `prev` moved by three deltas, its alpha carried (R166, R167, D4). -/
def Pixel.moved (prev : Pixel) (dr dg db : Int) : Pixel :=
  { r := addChannel prev.r dr, g := addChannel prev.g dg, b := addChannel prev.b db, a := prev.a }

/-- The bytes a pixel puts into a raster: r, g, b, never alpha (R171). -/
def Pixel.rgb (p : Pixel) : List Byte := [p.r, p.g, p.b]

/-- The bytes of `n` pixels of one color (R168). -/
def Pixel.repeated (p : Pixel) : Nat → List Byte
  | 0 => []
  | n + 1 => p.rgb ++ p.repeated n

/-- The decimal digits of `n`, most significant first; the first argument bounds their number. -/
def decDigits : Nat → Nat → List Byte
  | 0, _ => []
  | fuel + 1, n =>
    if n < 10 then [BitVec.ofNat 8 (0x30 + n)] else decDigits fuel (n / 10) ++ [BitVec.ofNat 8 (0x30 + n % 10)]

/-- `dec_ascii(n)` (R13). -/
def decAscii (n : Nat) : List Byte := decDigits (n + 1) n

/-- The text before the raw bytes of a raster buffer (R55, R116). -/
def rasterHeader (width height : Word32) : List Byte :=
  [0x50, 0x36, 0x0A] ++ decAscii width.toNat ++ [0x20] ++ decAscii height.toNat ++ [0x0A, 0x32, 0x35, 0x35, 0x0A]

/-- How many bytes an instruction puts at `out_pos` when it runs without an error (R116, R171, R172). -/
def emittedBytes : Instr → Nat
  | .index _ => 3
  | .diff _ _ _ => 3
  | .luma _ _ _ => 3
  | .run count => 3 * count
  | .rgb _ _ _ => 3
  | .rgba => 0
  | .hdr width height _ _ => (rasterHeader width height).length
  | .endMarker => 0

end Sys2Proof.Machine
end

