-- ==== Sys2Proof/Machine/Chunks.lean ====
section
/-! DEFINITION. The decoder's meaning of each chunk (42 R165 to R170). -/

namespace Sys2Proof.Machine

/-- `cache[hash(cur)] <- cur` (R166, R167, R169, R261). -/
def Dec.insert (cur : Pixel) (d : Dec) : Dec := { d with cache := d.cache.store (pxHash cur) cur }

/-- The end of a chunk step (R171, R175): `prev <- cur`, `n` copies of it emitted, the cursors advanced. -/
def Dec.produce (cur : Pixel) (n length : Nat) (d : Dec) : Answer Dec :=
  Dec.emit (cur.repeated n) { d with prev := cur, pxCount := d.pxCount + n, inPos := d.inPos + length }

/-- INDEX (R165): the cache is read, not written. -/
def execIndex (slot : Slot) (s : State) : Answer State :=
  s.onDec fun d => d.dispatch (.index slot) fun d => d.produce (d.cache.fetch slot) 1 1

/-- DIFF (R166). -/
def execDiff (dr dg db : Int) (s : State) : Answer State :=
  s.onDec fun d => d.dispatch (.diff dr dg db) fun d =>
    (d.insert (d.prev.moved dr dg db)).produce (d.prev.moved dr dg db) 1 1

/-- LUMA (R167): red and blue move with green. -/
def execLuma (dg drDg dbDg : Int) (s : State) : Answer State :=
  s.onDec fun d => d.dispatch (.luma dg drDg dbDg) fun d =>
    (d.insert (d.prev.moved (dg + drDg) dg (dg + dbDg))).produce (d.prev.moved (dg + drDg) dg (dg + dbDg)) 1 2

/-- RUN (R168): the overrun test before anything is emitted; `prev` and the cache stay. -/
def execRun (count : Nat) (s : State) : Answer State :=
  s.onDec fun d => d.dispatch (.run count) fun d =>
    if d.n - d.pxCount < count then .next (d.raise .formatError .runOverrun)
    else d.produce d.prev count 1

/-- RGB (R169): three literal channels, alpha carried from `prev`. -/
def execRgb (r g b : Byte) (s : State) : Answer State :=
  s.onDec fun d => d.dispatch (.rgb r g b) fun d =>
    (d.insert { r := r, g := g, b := b, a := d.prev.a }).produce { r := r, g := g, b := b, a := d.prev.a } 1 4

/-- RGBA (R170): always UnsupportedChunkError, on the tag byte alone. -/
def execRgba (s : State) : Answer State :=
  s.onDec fun d => d.dispatch .rgba fun d => .next (d.raise .unsupportedChunkError .none)

end Sys2Proof.Machine
end

