-- ==== Sys2Proof/Machine/Framing.lean ====
section
/-! DEFINITION. The decoder's meaning of the two framing units: the header (40 R111 to R116) and the end marker
(42 R172). Their content tests (magic, marker) are the decoder's of bytes (Decode.lean), whose errors the fetch raises. -/

namespace Sys2Proof.Machine

/-- HDR (R113, R116): the fields are latched unchecked (R114), the raster header emitted, `in_pos <- 14`. -/
def execHdr (width height : Word32) (channels colorspace : Byte) (s : State) : Answer State :=
  s.onDec fun d => d.dispatch (.hdr width height channels colorspace) fun d =>
    Dec.emit (rasterHeader width height)
      { d with
        width := width, height := height, channels := channels, colorspace := colorspace,
        inPos := Config.headerBytes, phase := .chunks }

/-- END (R172): `in_pos` past the marker, `phase <- DONE`. What follows is not read (R173). -/
def execEndMarker (s : State) : Answer State :=
  s.onDec fun d => d.dispatch .endMarker fun d => .next { d with inPos := d.inPos + 8, phase := .done }

end Sys2Proof.Machine
end

