-- ==== Sys2Proof/Machine/Dispatch.lean ====
section
/-! DEFINITION. One arm per instruction: the decoder executes it. -/

namespace Sys2Proof.Machine

def exec (i : Instr) (s : State) : Host.Outcome State Fault Refusal :=
  match i with
  | .index slot => Sys2Proof.Machine.execIndex slot s
  | .diff dr dg db => Sys2Proof.Machine.execDiff dr dg db s
  | .luma dg drDg dbDg => Sys2Proof.Machine.execLuma dg drDg dbDg s
  | .run count => Sys2Proof.Machine.execRun count s
  | .rgb r g b => Sys2Proof.Machine.execRgb r g b s
  | .rgba => Sys2Proof.Machine.execRgba s
  | .hdr width height channels colorspace => Sys2Proof.Machine.execHdr width height channels colorspace s
  | .endMarker => Sys2Proof.Machine.execEndMarker s

end Sys2Proof.Machine
end

