-- ==== Sys2Proof/Machine/Flags.lean ====
section
/-! DEFINITION. The hardware has no flags (R37). This file holds the conditions that stand in their place: the two
equalities (R191, R192) and the range tests of the encoder's decision (R133, R137, R138, R201). -/

namespace Sys2Proof.Machine

/-- RGBA equality, all four channels (R191). -/
def pxEq (p q : Pixel) : Bool := p.r == q.r && p.g == q.g && p.b == q.b && p.a == q.a

/-- RGB-only equality, of rasters (R192). No step of either agent uses it. -/
def rgbEq (p q : Pixel) : Bool := p.r == q.r && p.g == q.g && p.b == q.b

/-- The DIFF test (R137): each delta in -2..1. -/
def fitsDiff (dr dg db : Int) : Bool := inRange dr (-2) 1 && inRange dg (-2) 1 && inRange db (-2) 1

/-- The LUMA test (R138), by plain integer subtraction (R198). -/
def fitsLuma (dr dg db : Int) : Bool :=
  inRange dg (-32) 31 && inRange (dr - dg) (-8) 7 && inRange (db - dg) (-8) 7

end Sys2Proof.Machine
end

