-- ==== Sys2Proof/Machine/Encoder.lean ====
section
/-! DEFINITION. The encoder agent (40 R110, 41): its header step, its chunk step and its end-marker step. -/

namespace Sys2Proof.Machine

/-- `pixel(j)` of ENC.PIX, alpha 255 (R21, R132). -/
def Enc.pixel (e : Enc) (j : Nat) : Pixel where
  r := Memory.read e.pix.mem (3 * j)
  g := Memory.read e.pix.mem (3 * j + 1)
  b := Memory.read e.pix.mem (3 * j + 2)
  a := Config.alphaDefault

/-- `cur`, the pixel at the cursor (R132). -/
def Enc.cur (e : Enc) : Pixel := e.pixel e.pxPos

/-- The run scan of R134: how far `count` grows while the next pixel exists and equals `prev`; the first argument is how
much it may still grow. -/
def Enc.scan (e : Enc) : Nat → Nat → Nat
  | 0, count => count
  | more + 1, count =>
    if decide (e.pxPos + count < e.n) && pxEq (e.pixel (e.pxPos + count)) e.prev then e.scan more (count + 1)
    else count

/-- The repeat count of a RUN at the cursor, 1..62 (R134). -/
def Enc.runCount (e : Enc) : Nat := e.scan (Config.runMax - 1) 1

/-- The header step (R110). -/
def Enc.emitHeader (e : Enc) : Answer Enc :=
  Enc.emit (encode (.hdr e.width e.height Config.encChannels e.colorspace)) { e with phase := .pixels }

/-- RUN (R134): `prev` and the cache stay. -/
def Enc.emitRun (e : Enc) : Answer Enc :=
  Enc.emit (encode (.run e.runCount)) { e with pxPos := e.pxPos + e.runCount }

/-- INDEX (R135): the cache stays. -/
def Enc.emitIndex (e : Enc) : Answer Enc :=
  Enc.emit (encode (.index (pxHash e.cur))) { e with prev := e.cur, pxPos := e.pxPos + 1 }

/-- The cache write common to DIFF, LUMA and RGB (R136). -/
def Enc.insertCur (e : Enc) : Enc := { e with cache := e.cache.store (pxHash e.cur) e.cur }

/-- DIFF (R136, R137). -/
def Enc.emitDiff (dr dg db : Int) (e : Enc) : Answer Enc :=
  Enc.emit (encode (.diff dr dg db)) { e.insertCur with prev := e.cur, pxPos := e.pxPos + 1 }

/-- LUMA (R136, R138). -/
def Enc.emitLuma (dr dg db : Int) (e : Enc) : Answer Enc :=
  Enc.emit (encode (.luma dg (dr - dg) (db - dg))) { e.insertCur with prev := e.cur, pxPos := e.pxPos + 1 }

/-- RGB (R136, R139). -/
def Enc.emitRgb (e : Enc) : Answer Enc :=
  Enc.emit (encode (.rgb e.cur.r e.cur.g e.cur.b)) { e.insertCur with prev := e.cur, pxPos := e.pxPos + 1 }

/-- Step 3 of the decision (R133): DIFF, else LUMA, else RGB, by the deltas against `prev`. -/
def Enc.emitByDelta (dr dg db : Int) (e : Enc) : Answer Enc :=
  if fitsDiff dr dg db then e.emitDiff dr dg db
  else if fitsLuma dr dg db then e.emitLuma dr dg db
  else e.emitRgb

/-- One chunk step (R133, R146): RUN, else INDEX, else by the deltas. The contract on PIX is R51. -/
def Enc.chunkStep (wrap : Bool) (e : Enc) : Answer Enc :=
  if e.pix.len < 3 * e.n then .fault .pixOutOfBounds
  else if pxEq e.cur e.prev then e.emitRun
  else if pxEq (e.cache.fetch (pxHash e.cur)) e.cur then e.emitIndex
  else
    e.emitByDelta (delta wrap e.cur.r e.prev.r) (delta wrap e.cur.g e.prev.g) (delta wrap e.cur.b e.prev.b)

/-- The end-marker step (R142). -/
def Enc.emitEnd (e : Enc) : Answer Enc :=
  Enc.emit (encode .endMarker) { e with phase := .done }

/-- One step of the encoder under a value of DELTA_WRAP (R131). -/
def Enc.step (wrap : Bool) (e : Enc) : Answer Enc :=
  match e.phase with
  | .idle => .fault .noRun
  | .header => e.emitHeader
  | .pixels => if e.pxPos < e.n then e.chunkStep wrap else e.emitEnd
  | .endMarker => e.emitEnd
  | .done => .fault .noRun

end Sys2Proof.Machine
end

