-- ==== Sys2Proof/Machine/Fetch.lean ====
section
/-! DEFINITION. Fetching the decoder's next instruction, and placing one where it is fetched. -/

namespace Sys2Proof.Machine

/-- Where the bytes of the next instruction start: the header at stream address 0 (R89, R112), all else at `in_pos`. -/
def Dec.fetchPos (d : Dec) : Framing → Nat
  | .header => 0
  | .chunk => d.inPos
  | .endMarker => d.inPos

/-- Fetch and decode (R111 to R113, R163, R172): the bytes of DEC.IN that exist at the place, read as their framing. -/
def Dec.fetch (d : Dec) (f : Framing) : Except DecodeError Instr :=
  match decode f (d.input.window (d.fetchPos f) f.window) with
  | .ok (i, _) => .ok i
  | .error e => .error e

/-- A decoder in whose phase an instruction of this framing is dispatched next; for a chunk, with 62 pixels owed. -/
def Dec.awaiting (f : Framing) (d : Dec) : Dec :=
  match f with
  | .header => { d with phase := .header }
  | .chunk => { d with phase := .chunks, width := 62, height := 1, pxCount := 0 }
  | .endMarker => { d with phase := .endMarker }

/-- Place bytes in DEC.IN where the next fetch of this framing reads them, and give the output room for one step. -/
def Dec.place (f : Framing) (bytes : List Byte) (d : Dec) : Dec :=
  { d with
    input :=
      { len := max d.input.len (d.fetchPos f + bytes.length),
        mem := Memory.writeBytes d.input.mem (d.fetchPos f) bytes }
    out := { d.out with len := max d.out.len (d.outPos + 186) } }

end Sys2Proof.Machine
end

