-- ==== Sys2Proof/Machine/Schedule.lean ====
section
/-! DEFINITION. Which agent takes the machine's next step, and what ends a step. -/

namespace Sys2Proof.Machine

/-- The agent that moves: the one that runs, the free schedule's choice when both do (R7, R67; log 7), none when neither
does. -/
def State.mover (s : State) : Option Agent :=
  if s.enc.running then
    if s.dec.running then some (Config.schedule s.tick) else some .enc
  else if s.dec.running then some .dec else none

/-- After a decoder step: the loop test of R161, and the model's step count. -/
def State.endDec (s : State) : State := { s with dec := s.dec.loopTest, tick := s.tick + 1 }

/-- After an encoder step: the loop test of R131, and the model's step count. -/
def State.endEnc (s : State) : State := { s with enc := s.enc.loopTest, tick := s.tick + 1 }

/-- A decoder step whose bytes are no instruction of their framing: the error is raised (R220). -/
def State.raiseDecode (e : DecodeError) (s : State) : State := { s with dec := s.dec.raiseDecode e }

end Sys2Proof.Machine
end

