-- ==== Sys2Proof/Machine/Step.lean ====
section
/-! DEFINITION. One step of the machine (R8): one step of the agent that moves. -/

namespace Sys2Proof.Machine

/-- One step of the decoder (R161): fetch and decode at the cursor, then execute, or raise the error met. -/
def stepDec (s : State) : Host.Outcome State Fault Refusal :=
  match s.dec.framing with
  | none => .fault .noRun
  | some f =>
    match s.dec.fetch f with
    | .ok i => andThen (exec i s) fun t => .next t.endDec
    | .error e => .next (s.raiseDecode e).endDec

/-- One step of the encoder (R131) under DELTA_WRAP. -/
def stepEnc (s : State) : Host.Outcome State Fault Refusal :=
  andThen (s.onEnc (Enc.step Config.deltaWrap)) fun t => .next t.endEnc

/-- One step of the machine. -/
def step (s : State) : Host.Outcome State Fault Refusal :=
  match s.mover with
  | none => .fault .noRun
  | some .enc => stepEnc s
  | some .dec => stepDec s

/-- The state with a word of the opcode table stored where `step` fetches its next instruction: the decoder awaits its
framing, the bytes stand at the place it reads, and the encoder is idle, so that the decoder moves (log 2). -/
def State.withFetchWord (s : State) (nbits w : Nat) : State :=
  { s with
    enc := { s.enc with phase := .idle }
    dec := (s.dec.awaiting (tableBytes nbits w).1).place (tableBytes nbits w).1 (tableBytes nbits w).2 }

end Sys2Proof.Machine
end

