-- ==== Sys2Proof/Machine/Launch.lean ====
section
/-! DEFINITION. The host's side (70 R240 to R256): launching an agent, which is its only reset, and taking the result of
a finished run (R9). -/

namespace Sys2Proof.Machine

/-- The launch condition on the pixel count (R203, R253). -/
def admitsPixels (limit : Option Nat) (n : Nat) : Bool :=
  match limit with
  | none => true
  | some m => decide (n ≤ m)

/-- The output capacity an encoder launch needs (R60, R253). -/
def encCapacity (n : Nat) : Nat := 22 + 4 * n

/-- Width and height as they stand in a stream, if it has a header's length (R53). -/
def headerSize : List Byte → Option (Word32 × Word32)
  | _ :: _ :: _ :: _ :: w0 :: w1 :: w2 :: w3 :: h0 :: h1 :: h2 :: h3 :: _ :: _ :: _ =>
    some (rdBe32 w0 w1 w2 w3, rdBe32 h0 h1 h2 h3)
  | _ => none

/-- The output capacity a decoder launch needs (R253); none is needed where the stream has no whole header (log 14). -/
def decCapacity (bytes : List Byte) : Nat :=
  match headerSize bytes with
  | some (w, h) => (rasterHeader w h).length + 3 * min (w.toNat * h.toNat) (62 * (bytes.length - 14))
  | none => 0

/-- The pixel count a stream's header announces; 0 where it has no whole header. -/
def announcedPixels (bytes : List Byte) : Nat :=
  match headerSize bytes with
  | some (w, h) => w.toNat * h.toNat
  | none => 0

/-- Launch the encoder under a value of MAX_PIXELS (R130, R240, R253): every register of it takes its launch value. -/
def State.launchEncUnder (limit : Option Nat) (width height : Word32) (colorspace : Byte) (pix : List Byte)
    (capacity : Nat) (s : State) : Answer State :=
  if s.enc.running then .refused .agentRunning
  else if pix.length ≠ 3 * (width.toNat * height.toNat) then .refused .pixLength
  else if admitsPixels limit (width.toNat * height.toNat) = false then .refused .maxPixels
  else if capacity < encCapacity (width.toNat * height.toNat) then .refused .outCapacity
  else .next { s with enc := Enc.atLaunch width height colorspace (Buffer.ofBytes pix) capacity }

/-- Launch the encoder under the machine's MAX_PIXELS. -/
def State.launchEnc (width height : Word32) (colorspace : Byte) (pix : List Byte) (capacity : Nat) (s : State) :
    Answer State :=
  s.launchEncUnder Config.maxPixels width height colorspace pix capacity

/-- Launch the decoder under a value of MAX_PIXELS (R160, R240, R253): every register of it takes its launch value, so
`err` is cleared (R224). -/
def State.launchDecUnder (limit : Option Nat) (bytes : List Byte) (capacity : Nat) (s : State) : Answer State :=
  if s.dec.running then .refused .agentRunning
  else if admitsPixels limit (announcedPixels bytes) = false then .refused .maxPixels
  else if capacity < decCapacity bytes then .refused .outCapacity
  else .next { s with dec := Dec.atLaunch (Buffer.ofBytes bytes) capacity }

/-- Launch the decoder under the machine's MAX_PIXELS. -/
def State.launchDec (bytes : List Byte) (capacity : Nat) (s : State) : Answer State :=
  s.launchDecUnder Config.maxPixels bytes capacity

/-- What the host takes from the encoder at DONE: the used bytes of OUT, whose number is `out_len` (R9, R143). -/
def Enc.result (e : Enc) : Option (List Byte) :=
  if e.phase = .done then some (e.out.window 0 e.outPos) else none

/-- What the host takes from the decoder at DONE (R9, R161), with the diagnostic `consumed` (R173). -/
structure Decoded where
  bytes : List Byte
  width : Word32
  height : Word32
  channels : Byte
  colorspace : Byte
  consumed : Nat
  deriving DecidableEq, Repr

/-- The error the host takes from the decoder at FAULT (R221, R256): the triple of status registers of R36, the kind with
its two diagnostics. -/
structure Failure where
  err : ErrKind
  errSub : ErrSub
  errPos : Nat
  deriving DecidableEq, Repr

/-- The decoder's result: the outputs at DONE, the error at FAULT, whose outputs are void (R9, R221, R223, R256). -/
def Dec.result (d : Dec) : Option (Except Failure Decoded) :=
  match d.phase with
  | .idle => none
  | .header => none
  | .chunks => none
  | .endMarker => none
  | .done =>
    some (.ok
      { bytes := d.out.window 0 d.outPos, width := d.width, height := d.height, channels := d.channels,
        colorspace := d.colorspace, consumed := d.inPos })
  | .fault => some (.error { err := d.err, errSub := d.errSub, errPos := d.errPos })

end Sys2Proof.Machine
end

