-- ==== Sys2Proof/Machine/Raster.lean ====
section
/-! DEFINITION. The raster wrapper (40 R118 to R120): host-side glue, no agent and no state of its own. -/

namespace Sys2Proof.Machine

/-- Is the byte an ASCII decimal digit. -/
def isDigit (b : Byte) : Bool := decide (0x30 ≤ b.toNat) && decide (b.toNat ≤ 0x39)

/-- One more decimal digit after the number read so far. -/
def digitStep (acc : Nat) (b : Byte) : Nat := 10 * acc + (b.toNat - 0x30)

/-- The number that ASCII digits write, most significant first. -/
def digitsValue (bs : List Byte) : Nat := bs.foldl digitStep 0

/-- A number of a raster header: exactly its `dec_ascii` form and below 2^32 (R118, D17), and what follows. -/
def parseNumber (bs : List Byte) : Option (Nat × List Byte) :=
  if decAscii (digitsValue (bs.takeWhile isDigit)) = bs.takeWhile isDigit ∧
      digitsValue (bs.takeWhile isDigit) < 2 ^ 32 then
    some (digitsValue (bs.takeWhile isDigit), bs.dropWhile isDigit)
  else none

/-- Fixed text, and what follows it. -/
def parseText (text bs : List Byte) : Option (List Byte) :=
  if bs.take text.length = text then some (bs.drop text.length) else none

/-- The width, height and pixel bytes of a canonical raster buffer; none for any other byte sequence (R118). -/
def parseRaster (bs : List Byte) : Option (Word32 × Word32 × List Byte) :=
  (parseText [0x50, 0x36, 0x0A] bs).bind fun r1 =>
  (parseNumber r1).bind fun (w, r2) =>
  (parseText [0x20] r2).bind fun r3 =>
  (parseNumber r3).bind fun (h, r4) =>
  (parseText [0x0A, 0x32, 0x35, 0x35, 0x0A] r4).bind fun p =>
  if p.length = 3 * (w * h) then some (BitVec.ofNat 32 w, BitVec.ofNat 32 h, p) else none

/-- At most `k` steps, ending when no agent runs (R255). -/
def State.runs : Nat → State → Answer State
  | 0, s => .next s
  | k + 1, s =>
    match s.mover with
    | none => .next s
    | some _ => andThen (step s) (State.runs k)

/-- The machine with no agent running (R232), as it is before the first launch. What the registers and buffers of an
agent in IDLE hold is unspecified (R43, R243), any value (U16); that they hold the launch values of `State.reset` here is
the model's choice (log 20), and a launch overwrites every one of them (R42). -/
def State.idle : State :=
  { State.reset with
    enc := { State.reset.enc with phase := .idle }
    dec := { State.reset.dec with phase := .idle } }

/-- `encode_raster(R)` (R118) with the host's ENC_COLORSPACE: an encoder run of at most 2 + N steps (R144). -/
def encodeRaster (colorspace : Byte) (bs : List Byte) : Answer (List Byte) :=
  match parseRaster bs with
  | none => .refused .notCanonicalRaster
  | some (w, h, p) =>
    andThen (State.idle.launchEnc w h colorspace p (encCapacity (w.toNat * h.toNat))) fun s =>
    andThen (State.runs (2 + w.toNat * h.toNat) s) fun t =>
    match t.enc.result with
    | some out => .next out
    | none => .fault .noRun

/-- `decode_to_raster(S)` (R119): a decoder run of at most 2 + in_len steps (R262), with the capacity a host allocates
that has not read the header (R253); of a failure it gives the error kind. -/
def decodeToRaster (bs : List Byte) : Answer (Except ErrKind (List Byte)) :=
  andThen (State.idle.launchDec bs (29 + 186 * (bs.length - 14))) fun s =>
  andThen (State.runs (2 + bs.length) s) fun t =>
  match t.dec.result with
  | some (.ok out) => .next (.ok out.bytes)
  | some (.error e) => .next (.error e.err)
  | none => .fault .noRun

end Sys2Proof.Machine
end

