-- ==== Sys2Proof/Safety.lean ====
section
/-! DEFINITION. What counts as a safe state: the invariants of 10_state section 7 and of R60 and R253, over both
agents. An idle agent's registers are unspecified (R43), so nothing is asked of them. Before them, the conditions under
which a chunk runs. -/

namespace Sys2Proof.Machine

/-- The decoder dispatches a chunk (R161, R162). -/
def Dec.inChunks (d : Dec) : Prop := d.phase = .chunks ∧ d.pxCount < d.n

/-- A chunk of `len` bytes is dispatched, all its bytes are present (R164), and OUT has room for `k` more (R60). -/
def Dec.ready (len k : Nat) (d : Dec) : Prop :=
  d.inChunks ∧ d.inPos + len ≤ d.input.len ∧ d.outPos + k ≤ d.out.len

/-- A chunk of `len` bytes is dispatched and one of them is missing (R164). -/
def Dec.starved (len : Nat) (d : Dec) : Prop := d.inChunks ∧ d.input.len < d.inPos + len

/-- A cache slot holds the zero pixel or a pixel whose hash is its index (R45). -/
def Cache.coherent (c : Cache) : Prop := ∀ i : Slot, c.fetch i = Pixel.zero ∨ pxHash (c.fetch i) = i

/-- Every written slot has alpha 255 (R44). -/
def Cache.opaqueAlpha (c : Cache) : Prop := ∀ i : Slot, c.fetch i = Pixel.zero ∨ (c.fetch i).a = 255

/-- Every slot's alpha is 0 or 255 (R179). -/
def Cache.binaryAlpha (c : Cache) : Prop := ∀ i : Slot, (c.fetch i).a = 0 ∨ (c.fetch i).a = 255

/-- The encoder's invariant in every phase but IDLE: buffers in canonical form, PIX of its length (R51), room for the
worst case (R60), `px_pos <= N` (R24), alpha 255 (R44), the cache (R45). -/
structure Enc.Sound (e : Enc) : Prop where
  pixWf : e.pix.wf = true
  outWf : e.out.wf = true
  pixLen : e.pix.len = 3 * e.n
  capacity : encCapacity e.n ≤ e.out.len
  cursor : e.pxPos ≤ e.n
  alpha : e.prev.a = 255
  coherent : e.cache.coherent
  alphas : e.cache.opaqueAlpha

/-- Where the encoder's cursors stand in each phase (R24, R25, R131, R143). -/
def Enc.Placed (e : Enc) : Prop :=
  match e.phase with
  | .idle => True
  | .header => e.pxPos = 0 ∧ e.outPos = 0
  | .pixels => e.pxPos < e.n ∧ 14 ≤ e.outPos ∧ e.outPos ≤ 14 + 4 * e.pxPos ∧ e.pxPos ≤ 62 * (e.outPos - 14)
  | .endMarker => e.pxPos = e.n ∧ 14 ≤ e.outPos ∧ e.outPos ≤ 14 + 4 * e.n ∧ e.n ≤ 62 * (e.outPos - 14)
  | .done => e.pxPos = e.n ∧ 22 ≤ e.outPos ∧ e.outPos ≤ 22 + 4 * e.n ∧ e.n ≤ 62 * (e.outPos - 22)

/-- The encoder's invariant. -/
def Enc.Inv (e : Enc) : Prop := e.phase = .idle ∨ (e.Sound ∧ e.Placed)

/-- The length of the raster header the decoder has emitted, `hdr_len` (R55). -/
def Dec.hdrLen (d : Dec) : Nat := (rasterHeader d.width d.height).length

/-- No error is recorded (R36). -/
def Dec.noError (d : Dec) : Prop := d.err = .none ∧ d.errSub = .none ∧ d.errPos = 0

/-- The decoder's invariant in every phase but IDLE. -/
structure Dec.Sound (d : Dec) : Prop where
  inputWf : d.input.wf = true
  outWf : d.out.wf = true
  cursor : d.inPos ≤ d.input.len
  count : d.pxCount ≤ d.n
  used : d.outPos ≤ d.out.len
  coherent : d.cache.coherent
  alpha : d.prev.a = 0 ∨ d.prev.a = 255
  alphas : d.cache.binaryAlpha

/-- The capacity left covers every pixel the rest of the input can still owe (R253). -/
def Dec.roomy (d : Dec) : Prop :=
  d.hdrLen + 3 * min d.n (d.pxCount + 62 * (d.input.len - d.inPos)) ≤ d.out.len

/-- Where the decoder's cursors and status stand in each phase (R30 to R32, R36, R161, R174). -/
def Dec.Placed (d : Dec) : Prop :=
  match d.phase with
  | .idle => True
  | .header =>
    d.inPos = 0 ∧ d.pxCount = 0 ∧ d.outPos = 0 ∧ d.noError ∧ decCapacity (d.input.window 0 d.input.len) ≤ d.out.len
  | .chunks =>
    d.pxCount < d.n ∧ 14 ≤ d.inPos ∧ d.outPos = d.hdrLen + 3 * d.pxCount ∧ d.noError ∧ d.roomy
  | .endMarker => d.pxCount = d.n ∧ 14 ≤ d.inPos ∧ d.outPos = d.hdrLen + 3 * d.n ∧ d.noError
  | .done => d.pxCount = d.n ∧ 22 ≤ d.inPos ∧ d.outPos = d.hdrLen + 3 * d.n ∧ d.noError
  | .fault =>
    d.errPos = d.inPos ∧
      ((d.err = .formatError ∧ d.errSub ≠ .none) ∨ (d.err = .unsupportedChunkError ∧ d.errSub = .none))

/-- The decoder's invariant. -/
def Dec.Inv (d : Dec) : Prop := d.phase = .idle ∨ (d.Sound ∧ d.Placed)

/-- The machine's invariant. -/
def State.Inv (s : State) : Prop := s.enc.Inv ∧ s.dec.Inv

end Sys2Proof.Machine
end

