-- ==== Sys2Proof/Certificates/Slice0/Obligations.lean ====
section
/-! DEFINITION. The statements for the provers, from the numbered rules of spec/. -/

open Sys2Proof Sys2Proof.Machine

/-! ## Encoding (30_encoding) -/

/-- R93, R94, R100: decoding what was encoded, whatever follows it, gives the instruction back, every operand at every
value of its range. -/
def Obligations.DecodeInvertsEncode : Prop :=
  ∀ (i : Instr) (rest : List Byte), i.wellFormed = true → decode i.framing (encode i ++ rest) = .ok (i, rest)

/-- R89, R93: the other direction. What decodes is a well-formed instruction of that framing, and its encoding is the
bytes consumed: every sequence of bytes has at most one reading and no bit is dropped. -/
def Obligations.EncodeInvertsDecode : Prop :=
  ∀ (f : Framing) (bs : List Byte) (i : Instr) (rest : List Byte), decode f bs = .ok (i, rest) →
    i.framing = f ∧ i.wellFormed = true ∧ encode i ++ rest = bs

/-- R89 and R94: the first byte alone selects the kind and the length, over all 256 values, and the fields are these. -/
def Obligations.FirstByteSelectsKind : Prop :=
  ∀ (b0 b1 b2 b3 : Byte) (rest : List Byte),
    (b0.toNat ≤ 0x3F →
      decodeChunk (b0 :: b1 :: b2 :: b3 :: rest) = .ok (.index (Fin.ofNat 64 b0.toNat), b1 :: b2 :: b3 :: rest)) ∧
    (0x40 ≤ b0.toNat → b0.toNat ≤ 0x7F →
      decodeChunk (b0 :: b1 :: b2 :: b3 :: rest) =
        .ok (.diff ((b0.toNat / 16 % 4 : Nat) - 2) ((b0.toNat / 4 % 4 : Nat) - 2) ((b0.toNat % 4 : Nat) - 2),
          b1 :: b2 :: b3 :: rest)) ∧
    (0x80 ≤ b0.toNat → b0.toNat ≤ 0xBF →
      decodeChunk (b0 :: b1 :: b2 :: b3 :: rest) =
        .ok (.luma ((b0.toNat % 64 : Nat) - 32) ((b1.toNat / 16 : Nat) - 8) ((b1.toNat % 16 : Nat) - 8),
          b2 :: b3 :: rest)) ∧
    (0xC0 ≤ b0.toNat → b0.toNat ≤ 0xFD →
      decodeChunk (b0 :: b1 :: b2 :: b3 :: rest) = .ok (.run (b0.toNat % 64 + 1), b1 :: b2 :: b3 :: rest)) ∧
    (b0.toNat = 0xFE → decodeChunk (b0 :: b1 :: b2 :: b3 :: rest) = .ok (.rgb b1 b2 b3, rest)) ∧
    (b0.toNat = 0xFF → decodeChunk (b0 :: b1 :: b2 :: b3 :: rest) = .ok (.rgba, b1 :: b2 :: b3 :: rest))

/-- Words written out in 95_test_vectors (V-D1 to V-D5, V-F2, V-H2, R88) decode to the instructions they stand for. -/
def Obligations.SpecWordsDecode : Prop :=
  decodeChunk [0xFE, 0x80, 0x40, 0x20] = .ok (.rgb 128 64 32, []) ∧
  decodeChunk [0x7C] = .ok (.diff 1 1 (-2), []) ∧
  decodeChunk [0xA2, 0x84] = .ok (.luma 2 0 (-4), []) ∧
  decodeChunk [0xC1] = .ok (.run 2, []) ∧
  decodeChunk [0x15] = .ok (.index 21, []) ∧
  decodeChunk [0xFF] = .ok (.rgba, []) ∧
  decodeHeader [0x71, 0x6F, 0x69, 0x66, 0x00, 0x00, 0x02, 0x80, 0x00, 0x00, 0x01, 0xE0, 0x03, 0x00] =
    .ok (.hdr 640 480 3 0, []) ∧
  decodeEnd [0x00, 0x00, 0x00, 0x00, 0x00, 0x00, 0x00, 0x01] = .ok (.endMarker, [])

/-! ## Arithmetic (43_color_cache_and_arithmetic, R13) -/

/-- R190 and R193: the hash is the exact sum modulo 64, and computing it in 6, 8, 16 or 32 bits of wrapping arithmetic
gives the same slot; with the rule's constants, and 64 added to any one channel changes nothing. -/
def Obligations.HashInAnyWidth : Prop :=
  (∀ p : Pixel,
    (pxHash p).val = (3 * p.r.toNat + 5 * p.g.toNat + 7 * p.b.toNat + 11 * p.a.toNat) % 64 ∧
    (∀ w : Nat, 6 ≤ w →
      (pxHash p).val =
        (3 * p.r.setWidth w + 5 * p.g.setWidth w + 7 * p.b.setWidth w + 11 * p.a.setWidth w).toNat % 64) ∧
    (p.a = 255 → (pxHash p).val = (3 * p.r.toNat + 5 * p.g.toNat + 7 * p.b.toNat + 53) % 64) ∧
    pxHash { p with r := p.r + 64 } = pxHash p ∧ pxHash { p with g := p.g + 64 } = pxHash p ∧
    pxHash { p with b := p.b + 64 } = pxHash p ∧ pxHash { p with a := p.a + 64 } = pxHash p) ∧
  11 * 255 % 64 = 53 ∧ pxHash { r := 0, g := 0, b := 0, a := 255 } = 53 ∧ pxHash { r := 0, g := 0, b := 0, a := 0 } = 0

/-- R197: the two readings of the encoder's channel difference and their ranges; both are congruent to `x - y` modulo
256; they agree when the difference is in -128..127, and then so does the step; where a channel moves further, the
reading `false` falls to INDEX or RGB; and the rule's example. -/
def Obligations.DeltaReadings : Prop :=
  (∀ x y : Byte,
    delta false x y = (x.toNat : Int) - y.toNat ∧ -255 ≤ delta false x y ∧ delta false x y ≤ 255 ∧
    delta true x y =
      (if ((x.toNat : Int) - y.toNat) % 256 < 128 then ((x.toNat : Int) - y.toNat) % 256
        else ((x.toNat : Int) - y.toNat) % 256 - 256) ∧
    -128 ≤ delta true x y ∧ delta true x y ≤ 127 ∧
    (∀ wrap : Bool, (delta wrap x y - ((x.toNat : Int) - y.toNat)) % 256 = 0) ∧
    (-128 ≤ (x.toNat : Int) - y.toNat → (x.toNat : Int) - y.toNat ≤ 127 → delta true x y = delta false x y)) ∧
  (∀ e : Enc,
    (-128 ≤ delta false e.cur.r e.prev.r ∧ delta false e.cur.r e.prev.r ≤ 127) →
    (-128 ≤ delta false e.cur.g e.prev.g ∧ delta false e.cur.g e.prev.g ≤ 127) →
    (-128 ≤ delta false e.cur.b e.prev.b ∧ delta false e.cur.b e.prev.b ≤ 127) → e.step true = e.step false) ∧
  (∀ e t : Enc, e.phase = .pixels → e.pxPos < e.n → e.step false = .next t →
    ¬ ((-128 ≤ delta false e.cur.r e.prev.r ∧ delta false e.cur.r e.prev.r ≤ 127) ∧
        (-128 ≤ delta false e.cur.g e.prev.g ∧ delta false e.cur.g e.prev.g ≤ 127) ∧
        (-128 ≤ delta false e.cur.b e.prev.b ∧ delta false e.cur.b e.prev.b ≤ 127)) →
    t.out = e.out.store e.outPos (encode (.index (pxHash e.cur))) ∨
      t.out = e.out.store e.outPos (encode (.rgb e.cur.r e.cur.g e.cur.b))) ∧
  delta false 0 255 = -255 ∧ delta true 0 255 = 1 ∧ encode (.diff 1 1 1) = [0x7F]

/-- R199: the decoder's channel addition is modulo 256; for the sums that occur it adds or subtracts 256 at most once. -/
def Obligations.ChannelAdditionWraps : Prop :=
  (∀ (x : Byte) (d : Int), ((addChannel x d).toNat : Int) = (x.toNat + d) % 256) ∧
  (∀ (x : Byte) (d : Int), -40 ≤ d → d ≤ 38 →
    -40 ≤ x.toNat + d ∧ x.toNat + d ≤ 293 ∧
    ((addChannel x d).toNat : Int) =
      if (x.toNat : Int) + d < 0 then x.toNat + d + 256
      else if 255 < (x.toNat : Int) + d then x.toNat + d - 256 else x.toNat + d) ∧
  addChannel 255 1 = 0 ∧ addChannel 0 (-2) = 254 ∧ addChannel 0 (-32 + -8) = 216 ∧ addChannel 250 (31 + 7) = 32

/-- R13 (`dec_ascii`), R116: the decimal text of a number is its digits, most significant first, no leading zero, the
single digit 0 for zero. -/
def Obligations.DecimalTextIsMinimal : Prop :=
  decAscii 0 = [0x30] ∧
  ∀ n : Nat,
    decAscii n ≠ [] ∧ (∀ b ∈ decAscii n, 0x30 ≤ b.toNat ∧ b.toNat ≤ 0x39) ∧
    digitsValue (decAscii n) = n ∧ (n ≠ 0 → (decAscii n).head? ≠ some 0x30)

/-- R55: the text part of a raster is `9 + digits(W) + digits(H)` bytes long, between 11 and 29. -/
def Obligations.RasterHeaderLength : Prop :=
  ∀ w h : Word32,
    (rasterHeader w h).length = 9 + (decAscii w.toNat).length + (decAscii h.toNat).length ∧
    11 ≤ (rasterHeader w h).length ∧ (rasterHeader w h).length ≤ 29

/-! ## The decoder's instructions (42_decoder, 40_header_codec) -/

/-- R165, INDEX: its first bytes, its effect, and its one error. -/
def Obligations.IndexChunk : Prop :=
  (∀ (b0 : Byte) (rest : List Byte), b0.toNat ≤ 0x3F →
    decodeChunk (b0 :: rest) = .ok (.index (Fin.ofNat 64 b0.toNat), rest)) ∧
  (∀ (s : State) (i : Slot), s.dec.ready 1 3 →
    exec (.index i) s =
      .next
        { s with
          dec :=
            { s.dec with
              prev := s.dec.cache[i]
              out := s.dec.out.store s.dec.outPos [s.dec.cache[i].r, s.dec.cache[i].g, s.dec.cache[i].b]
              outPos := s.dec.outPos + 3
              pxCount := s.dec.pxCount + 1
              inPos := s.dec.inPos + 1 } }) ∧
  (∀ (s : State) (i : Slot), s.dec.starved 1 →
    exec (.index i) s =
      .next
        { s with
          dec :=
            { s.dec with err := .formatError, errSub := .truncated, errPos := s.dec.inPos, phase := .fault } })

/-- R166, DIFF: its first bytes, its effect (the sums modulo 256, alpha carried, the new pixel's slot written), and its
one error. -/
def Obligations.DiffChunk : Prop :=
  (∀ (b0 : Byte) (rest : List Byte), 0x40 ≤ b0.toNat → b0.toNat ≤ 0x7F →
    decodeChunk (b0 :: rest) =
      .ok (.diff ((b0.toNat / 16 % 4 : Nat) - 2) ((b0.toNat / 4 % 4 : Nat) - 2) ((b0.toNat % 4 : Nat) - 2), rest)) ∧
  (∀ (s : State) (dr dg db : Int) (cur : Pixel), s.dec.ready 1 3 →
    cur =
      { r := BitVec.ofInt 8 (s.dec.prev.r.toNat + dr)
        g := BitVec.ofInt 8 (s.dec.prev.g.toNat + dg)
        b := BitVec.ofInt 8 (s.dec.prev.b.toNat + db)
        a := s.dec.prev.a } →
    exec (.diff dr dg db) s =
      .next
        { s with
          dec :=
            { s.dec with
              cache := s.dec.cache.set (pxHash cur) cur
              prev := cur
              out := s.dec.out.store s.dec.outPos [cur.r, cur.g, cur.b]
              outPos := s.dec.outPos + 3
              pxCount := s.dec.pxCount + 1
              inPos := s.dec.inPos + 1 } }) ∧
  (∀ (s : State) (dr dg db : Int), s.dec.starved 1 →
    exec (.diff dr dg db) s =
      .next
        { s with
          dec :=
            { s.dec with err := .formatError, errSub := .truncated, errPos := s.dec.inPos, phase := .fault } })

/-- R167, LUMA: its first bytes and fields, its effect, and its error when the second byte is missing. -/
def Obligations.LumaChunk : Prop :=
  (∀ (b0 b1 : Byte) (rest : List Byte), 0x80 ≤ b0.toNat → b0.toNat ≤ 0xBF →
    decodeChunk (b0 :: b1 :: rest) =
      .ok (.luma ((b0.toNat % 64 : Nat) - 32) ((b1.toNat / 16 : Nat) - 8) ((b1.toNat % 16 : Nat) - 8), rest)) ∧
  (∀ (s : State) (dg drDg dbDg : Int) (cur : Pixel), s.dec.ready 2 3 →
    cur =
      { r := BitVec.ofInt 8 (s.dec.prev.r.toNat + dg + drDg)
        g := BitVec.ofInt 8 (s.dec.prev.g.toNat + dg)
        b := BitVec.ofInt 8 (s.dec.prev.b.toNat + dg + dbDg)
        a := s.dec.prev.a } →
    exec (.luma dg drDg dbDg) s =
      .next
        { s with
          dec :=
            { s.dec with
              cache := s.dec.cache.set (pxHash cur) cur
              prev := cur
              out := s.dec.out.store s.dec.outPos [cur.r, cur.g, cur.b]
              outPos := s.dec.outPos + 3
              pxCount := s.dec.pxCount + 1
              inPos := s.dec.inPos + 2 } }) ∧
  (∀ (s : State) (dg drDg dbDg : Int), s.dec.starved 2 →
    exec (.luma dg drDg dbDg) s =
      .next
        { s with
          dec :=
            { s.dec with err := .formatError, errSub := .truncated, errPos := s.dec.inPos, phase := .fault } })

/-- R168, RUN: its first bytes, its effect (`prev` emitted `count` times, `prev` and the cache unchanged), its overrun
error with no partial effect, and its truncation error. -/
def Obligations.RunChunk : Prop :=
  (∀ (b0 : Byte) (rest : List Byte), 0xC0 ≤ b0.toNat → b0.toNat ≤ 0xFD →
    decodeChunk (b0 :: rest) = .ok (.run (b0.toNat % 64 + 1), rest)) ∧
  (∀ (s : State) (count : Nat), s.dec.ready 1 (3 * count) → count ≤ s.dec.n - s.dec.pxCount →
    exec (.run count) s =
      .next
        { s with
          dec :=
            { s.dec with
              out :=
                s.dec.out.store s.dec.outPos
                  (List.replicate count [s.dec.prev.r, s.dec.prev.g, s.dec.prev.b]).flatten
              outPos := s.dec.outPos + 3 * count
              pxCount := s.dec.pxCount + count
              inPos := s.dec.inPos + 1 } }) ∧
  (∀ (s : State) (count : Nat), s.dec.inChunks → s.dec.inPos + 1 ≤ s.dec.input.len →
    s.dec.n - s.dec.pxCount < count →
    exec (.run count) s =
      .next
        { s with
          dec :=
            { s.dec with err := .formatError, errSub := .runOverrun, errPos := s.dec.inPos, phase := .fault } }) ∧
  (∀ (s : State) (count : Nat), s.dec.starved 1 →
    exec (.run count) s =
      .next
        { s with
          dec :=
            { s.dec with err := .formatError, errSub := .truncated, errPos := s.dec.inPos, phase := .fault } })

/-- R169, RGB: its bytes, its effect (three literal channels, alpha carried, the slot written), and its error when a
payload byte is missing. -/
def Obligations.RgbChunk : Prop :=
  (∀ (r g b : Byte) (rest : List Byte), decodeChunk (0xFE :: r :: g :: b :: rest) = .ok (.rgb r g b, rest)) ∧
  (∀ (s : State) (cur : Pixel), s.dec.ready 4 3 → cur.a = s.dec.prev.a →
    exec (.rgb cur.r cur.g cur.b) s =
      .next
        { s with
          dec :=
            { s.dec with
              cache := s.dec.cache.set (pxHash cur) cur
              prev := cur
              out := s.dec.out.store s.dec.outPos [cur.r, cur.g, cur.b]
              outPos := s.dec.outPos + 3
              pxCount := s.dec.pxCount + 1
              inPos := s.dec.inPos + 4 } }) ∧
  (∀ (s : State) (r g b : Byte), s.dec.starved 4 →
    exec (.rgb r g b) s =
      .next
        { s with
          dec :=
            { s.dec with err := .formatError, errSub := .truncated, errPos := s.dec.inPos, phase := .fault } })

/-- R170, RGBA: the tag byte alone decodes to it, whatever follows, and it always raises UnsupportedChunkError, changing
nothing but the fault registers, whatever the header's channels. -/
def Obligations.RgbaChunk : Prop :=
  (∀ rest : List Byte, decodeChunk (0xFF :: rest) = .ok (.rgba, rest)) ∧
  (∀ s : State, s.dec.inChunks → s.dec.inPos + 1 ≤ s.dec.input.len →
    exec .rgba s =
      .next
        { s with
          dec :=
            { s.dec with
              err := .unsupportedChunkError, errSub := .none, errPos := s.dec.inPos, phase := .fault } })

/-- R113, R114, R116: the header step, once the length and the magic are good. The fields are read big-endian, latched
unchecked, and the raster header is emitted. -/
def Obligations.HeaderUnit : Prop :=
  (∀ (w0 w1 w2 w3 h0 h1 h2 h3 ch cs : Byte) (rest : List Byte),
    decodeHeader (0x71 :: 0x6F :: 0x69 :: 0x66 :: w0 :: w1 :: w2 :: w3 :: h0 :: h1 :: h2 :: h3 :: ch :: cs :: rest) =
      .ok
        (.hdr (BitVec.ofNat 32 (w0.toNat * 2 ^ 24 + w1.toNat * 2 ^ 16 + w2.toNat * 2 ^ 8 + w3.toNat))
          (BitVec.ofNat 32 (h0.toNat * 2 ^ 24 + h1.toNat * 2 ^ 16 + h2.toNat * 2 ^ 8 + h3.toNat)) ch cs, rest)) ∧
  (∀ (s : State) (w h : Word32) (ch cs : Byte) (text : List Byte), s.dec.phase = .header → 14 ≤ s.dec.input.len →
    text =
      [0x50, 0x36, 0x0A] ++ decAscii w.toNat ++ [0x20] ++ decAscii h.toNat ++ [0x0A, 0x32, 0x35, 0x35, 0x0A] →
    s.dec.outPos + text.length ≤ s.dec.out.len →
    ∃ t : State,
      exec (.hdr w h ch cs) s = .next t ∧ t.dec.n = w.toNat * h.toNat ∧
      t =
        { s with
          dec :=
            { s.dec with
              width := w
              height := h
              channels := ch
              colorspace := cs
              inPos := 14
              out := s.dec.out.store s.dec.outPos text
              outPos := s.dec.outPos + text.length
              phase := .chunks } })

/-- R172, the effect: the end marker moves the cursor by 8 and ends the run; nothing else changes. (That CHUNKS with no
pixel owed dispatches it too, which no run reaches, is the model's reading of R161, log 9.) -/
def Obligations.EndMarkerUnit : Prop :=
  ∀ s : State,
    (s.dec.phase = .endMarker ∨ (s.dec.phase = .chunks ∧ s.dec.n ≤ s.dec.pxCount)) →
    s.dec.inPos + 8 ≤ s.dec.input.len →
    exec .endMarker s = .next { s with dec := { s.dec with inPos := s.dec.inPos + 8, phase := .done } }

/-- Where the decoder's phase dispatches no instruction of this framing (R161, R162), executing one is refused by name
(the model's choice, log 10: the spec has no such move). -/
def Obligations.UndispatchedInstructionIsRefused : Prop :=
  ∀ (i : Instr) (s : State), s.dec.framing ≠ some i.framing → exec i s = .refused .notDispatched

/-- The frame of all eight instructions (R165 to R172, R113, R220): the encoder, the input, the other registers and
every byte of OUT outside those the instruction emits at `out_pos` stay; of the cache at most the slot of the new `prev`
changes, and only by DIFF, LUMA and RGB; a fault writes its four registers only. -/
def Obligations.ExecFrame : Prop :=
  ∀ (i : Instr) (s t : State), exec i s = .next t →
    t.enc = s.enc ∧ t.tick = s.tick ∧ t.dec.input = s.dec.input ∧ t.dec.out.len = s.dec.out.len ∧
    (∀ a : Nat, a < s.dec.outPos ∨ s.dec.outPos + emittedBytes i ≤ a →
      Memory.read t.dec.out.mem a = Memory.read s.dec.out.mem a) ∧
    (t.dec.phase ≠ .fault → t.dec.outPos = s.dec.outPos + emittedBytes i) ∧
    (i.framing ≠ .header →
      t.dec.width = s.dec.width ∧ t.dec.height = s.dec.height ∧ t.dec.channels = s.dec.channels ∧
      t.dec.colorspace = s.dec.colorspace) ∧
    (i.framing ≠ .chunk →
      t.dec.prev = s.dec.prev ∧ t.dec.cache = s.dec.cache ∧ t.dec.pxCount = s.dec.pxCount) ∧
    (∀ slot, i = .index slot → t.dec.cache = s.dec.cache) ∧
    (∀ count, i = .run count → t.dec.cache = s.dec.cache ∧ t.dec.prev = s.dec.prev) ∧
    (∀ j : Slot, j ≠ pxHash t.dec.prev → t.dec.cache.fetch j = s.dec.cache.fetch j) ∧
    (t.dec.phase ≠ .fault →
      t.dec.err = s.dec.err ∧ t.dec.errSub = s.dec.errSub ∧ t.dec.errPos = s.dec.errPos ∧
      (i.framing = .chunk → t.dec.phase = s.dec.phase)) ∧
    (t.dec.phase = .fault →
      t.dec =
        { s.dec with
          err := t.dec.err, errSub := t.dec.errSub, errPos := s.dec.inPos, phase := .fault } ∧
      t.dec.err ≠ .none)

/-- R171: every executed chunk puts the r, g, b bytes of each pixel it makes at `out_pos`, in that order and never alpha,
and adds their number to `px_count`. -/
def Obligations.ChunkEmitsItsPixels : Prop :=
  ∀ (i : Instr) (s t : State), exec i s = .next t → i.framing = .chunk → t.dec.phase ≠ .fault →
    s.dec.out.wf = true →
    t.dec.outPos = s.dec.outPos + 3 * (t.dec.pxCount - s.dec.pxCount) ∧
    ∀ k : Nat, k < t.dec.pxCount - s.dec.pxCount →
      Memory.read t.dec.out.mem (s.dec.outPos + 3 * k) = t.dec.prev.r ∧
      Memory.read t.dec.out.mem (s.dec.outPos + 3 * k + 1) = t.dec.prev.g ∧
      Memory.read t.dec.out.mem (s.dec.outPos + 3 * k + 2) = t.dec.prev.b

/-! ## The step -/

/-- R8, R161: when the decoder moves and the bytes at its cursor decode to an instruction, the step is that
instruction's execution, then the loop test of R161 ("when px_count = N: phase <- END"; that it is no step of its own is
log 9) and the model's own step count (log 7). -/
def Obligations.StepRunsDecodedInstruction : Prop :=
  ∀ (s : State) (f : Framing) (i : Instr) (rest : List Byte), s.mover = some .dec → s.dec.framing = some f →
    decode f (s.dec.input.window (if f = .header then 0 else s.dec.inPos) f.window) = .ok (i, rest) →
    step s =
      match exec i s with
      | .next t =>
        .next
          { t with
            dec :=
              if t.dec.phase = .chunks ∧ t.dec.n ≤ t.dec.pxCount then { t.dec with phase := .endMarker } else t.dec
            tick := t.tick + 1 }
      | .fault r => .fault r
      | .refused r => .refused r

/-- The same from the bytes: where the encoding of a well-formed instruction stands in DEC.IN at the place the phase
fetches from, the step executes that instruction (logs 7 and 9 as before). -/
def Obligations.StepRunsStoredInstruction : Prop :=
  ∀ (s : State) (i : Instr), s.mover = some .dec → s.dec.framing = some i.framing → i.wellFormed = true →
    (if i.framing = .header then 0 else s.dec.inPos) + (encode i).length ≤ s.dec.input.len →
    (∀ (k : Nat) (hk : k < (encode i).length),
      Memory.read s.dec.input.mem ((if i.framing = .header then 0 else s.dec.inPos) + k) = (encode i)[k]) →
    step s =
      match exec i s with
      | .next t =>
        .next
          { t with
            dec :=
              if t.dec.phase = .chunks ∧ t.dec.n ≤ t.dec.pxCount then { t.dec with phase := .endMarker } else t.dec
            tick := t.tick + 1 }
      | .fault r => .fault r
      | .refused r => .refused r

/-- R111 and R112: the header step faults on an input shorter than 14 bytes, whatever the bytes, and on any other magic. -/
def Obligations.HeaderFaults : Prop :=
  ∀ s : State, s.mover = some .dec → s.dec.phase = .header → s.dec.inPos = 0 →
    (s.dec.input.len < 14 →
      ∃ t : State, step s = .next t ∧ t.enc = s.enc ∧
        t.dec =
          { s.dec with err := .formatError, errSub := .truncated, errPos := 0, phase := .fault }) ∧
    (14 ≤ s.dec.input.len →
      ¬ (Memory.read s.dec.input.mem 0 = 0x71 ∧ Memory.read s.dec.input.mem 1 = 0x6F ∧
          Memory.read s.dec.input.mem 2 = 0x69 ∧ Memory.read s.dec.input.mem 3 = 0x66) →
      ∃ t : State, step s = .next t ∧ t.enc = s.enc ∧
        t.dec =
          { s.dec with err := .formatError, errSub := .badMagic, errPos := 0, phase := .fault })

/-- R164: before a chunk step changes anything it checks that all its bytes are inside the input; for RGBA the check is
for the tag byte only (R216: the payload is not looked at). -/
def Obligations.ChunkAvailability : Prop :=
  ∀ s : State, s.mover = some .dec → s.dec.inChunks →
    (s.dec.input.len < s.dec.inPos + 1 ∨
      (s.dec.inPos < s.dec.input.len ∧ s.dec.input.len < s.dec.inPos + 2 ∧
        0x80 ≤ (Memory.read s.dec.input.mem s.dec.inPos).toNat ∧
        (Memory.read s.dec.input.mem s.dec.inPos).toNat ≤ 0xBF) ∨
      (s.dec.inPos < s.dec.input.len ∧ s.dec.input.len < s.dec.inPos + 4 ∧
        Memory.read s.dec.input.mem s.dec.inPos = 0xFE) →
      ∃ t : State, step s = .next t ∧ t.enc = s.enc ∧
        t.dec =
          { s.dec with err := .formatError, errSub := .truncated, errPos := s.dec.inPos, phase := .fault }) ∧
    (s.dec.inPos < s.dec.input.len → Memory.read s.dec.input.mem s.dec.inPos = 0xFF →
      ∃ t : State, step s = .next t ∧ t.enc = s.enc ∧
        t.dec =
          { s.dec with err := .unsupportedChunkError, errSub := .none, errPos := s.dec.inPos, phase := .fault })

/-- R172: the end-marker step, length before content; a good marker ends the run. -/
def Obligations.EndMarkerStep : Prop :=
  ∀ s : State, s.mover = some .dec → s.dec.phase = .endMarker →
    (s.dec.input.len < s.dec.inPos + 8 →
      ∃ t : State, step s = .next t ∧ t.enc = s.enc ∧
        t.dec =
          { s.dec with err := .formatError, errSub := .truncated, errPos := s.dec.inPos, phase := .fault }) ∧
    (s.dec.inPos + 8 ≤ s.dec.input.len →
      (List.range 8).map (fun k => Memory.read s.dec.input.mem (s.dec.inPos + k)) ≠ [0, 0, 0, 0, 0, 0, 0, 1] →
      ∃ t : State, step s = .next t ∧ t.enc = s.enc ∧
        t.dec =
          { s.dec with err := .formatError, errSub := .badEndMarker, errPos := s.dec.inPos, phase := .fault }) ∧
    (s.dec.inPos + 8 ≤ s.dec.input.len →
      (List.range 8).map (fun k => Memory.read s.dec.input.mem (s.dec.inPos + k)) = [0, 0, 0, 0, 0, 0, 0, 1] →
      ∃ t : State, step s = .next t ∧ t.enc = s.enc ∧
        t.dec = { s.dec with inPos := s.dec.inPos + 8, phase := .done })

/-- R220 and R222: whenever a step leaves the decoder faulted that was not, the decoder is as before the step plus the
four writes, with `err_pos` the cursor at the start of the step and the cause one of R212. -/
def Obligations.FaultsArePrecise : Prop :=
  ∀ s t : State, step s = .next t → s.dec.phase ≠ .fault → t.dec.phase = .fault →
    t.dec =
      { s.dec with err := t.dec.err, errSub := t.dec.errSub, errPos := s.dec.inPos, phase := .fault } ∧
    ((t.dec.err = .formatError ∧ t.dec.errSub ≠ .none) ∨
      (t.dec.err = .unsupportedChunkError ∧ t.dec.errSub = .none))

/-- R224, R255: no step of the machine leads an agent out of DONE or FAULT, and where no agent runs there is no step (the
machine is stuck; the model's fault noRun, log 13). -/
def Obligations.FinishedRunsStayFinished : Prop :=
  (∀ s t : State, step s = .next t →
    (s.dec.phase = .fault ∨ s.dec.phase = .done → t.dec = s.dec) ∧ (s.enc.phase = .done → t.enc = s.enc)) ∧
  (∀ s : State, (s.enc.phase = .idle ∨ s.enc.phase = .done) →
    (s.dec.phase = .idle ∨ s.dec.phase = .done ∨ s.dec.phase = .fault) → step s = .fault .noRun)

/-! ## The agents together (R7, R67) -/

/-- R67, R230: a step changes only the agent that moves, and what it does there depends on that agent alone. -/
def Obligations.AgentsDoNotInterfere : Prop :=
  (∀ s s' t : State, s.mover = some .dec → s'.mover = some .dec → s'.dec = s.dec → step s = .next t →
    t.enc = s.enc ∧ ∃ t' : State, step s' = .next t' ∧ t'.dec = t.dec ∧ t'.enc = s'.enc) ∧
  (∀ s s' t : State, s.mover = some .enc → s'.mover = some .enc → s'.enc = s.enc → step s = .next t →
    t.dec = s.dec ∧ ∃ t' : State, step s' = .next t' ∧ t'.enc = t.enc ∧ t'.dec = s'.dec)

/-- R67: a step of the encoder and a step of the decoder give the same machine in either order. -/
def Obligations.AgentStepsCommute : Prop :=
  ∀ s a b : State, stepEnc s = .next a → stepDec s = .next b →
    ∃ t : State, stepDec a = .next t ∧ stepEnc b = .next t

/-- R59, R52: a step writes no output byte below the cursors, never rewrites one, and changes no input. -/
def Obligations.OutputWrittenOnce : Prop :=
  ∀ s t : State, step s = .next t →
    t.enc.pix = s.enc.pix ∧ t.dec.input = s.dec.input ∧
    t.enc.out.len = s.enc.out.len ∧ t.dec.out.len = s.dec.out.len ∧
    s.enc.outPos ≤ t.enc.outPos ∧ s.dec.outPos ≤ t.dec.outPos ∧
    (∀ a : Nat, a < s.enc.outPos ∨ t.enc.outPos ≤ a →
      Memory.read t.enc.out.mem a = Memory.read s.enc.out.mem a) ∧
    (∀ a : Nat, a < s.dec.outPos ∨ t.dec.outPos ≤ a →
      Memory.read t.dec.out.mem a = Memory.read s.dec.out.mem a)

/-! ## Invariants and termination (10_state section 7) -/

/-- The invariant (memory canonical, cursors in range, the cache of R45, alpha of R44 and R179, room in OUT) holds at
reset, with the host inputs the model chose for it (log 1). -/
def Obligations.ResetMeetsInvariant : Prop := State.reset.Inv

/-- Every step of the machine, from any state with the invariant, keeps it (R24, R30 to R32, R36, R44, R45, R60, R174,
R253). -/
def Obligations.StepKeepsInvariant : Prop :=
  ∀ s t : State, s.Inv → step s = .next t → t.Inv

/-- R60, R176, R253: from a state with the invariant every step with an agent to move completes: no write leaves the
output buffer, no read leaves PIX, and nothing is refused. -/
def Obligations.RunningStepCompletes : Prop :=
  ∀ s : State, s.Inv → s.mover ≠ none → ∃ t : State, step s = .next t

/-- R253: an admitted launch of either agent gives a state with the invariant. -/
def Obligations.LaunchMeetsInvariant : Prop :=
  (∀ (w h : Word32) (cs : Byte) (pix : List Byte) (cap : Nat) (s t : State), s.Inv →
    s.launchEnc w h cs pix cap = .next t → t.Inv) ∧
  (∀ (bytes : List Byte) (cap : Nat) (s t : State), s.Inv → s.launchDec bytes cap = .next t → t.Inv)

/-- R42: an admitted launch sets every register of its agent to the value of R42, whatever was there, and leaves the
other agent; the input buffer holds the host's bytes and the output buffer has the host's capacity. -/
def Obligations.LaunchSetsEveryRegister : Prop :=
  (∀ (w h : Word32) (cs : Byte) (pix : List Byte) (cap : Nat) (s t : State),
    s.launchEnc w h cs pix cap = .next t →
    t.dec = s.dec ∧ t.enc.out.len = cap ∧
    t.enc =
      { prev := { r := 0, g := 0, b := 0, a := 255 }
        cache := Vector.replicate 64 { r := 0, g := 0, b := 0, a := 0 }
        pxPos := 0
        outPos := 0
        width := w
        height := h
        colorspace := cs
        phase := .header
        pix := Buffer.ofBytes pix
        out := t.enc.out }) ∧
  (∀ (bytes : List Byte) (cap : Nat) (s t : State), s.launchDec bytes cap = .next t →
    t.enc = s.enc ∧ t.dec.out.len = cap ∧
    t.dec =
      { prev := { r := 0, g := 0, b := 0, a := 255 }
        cache := Vector.replicate 64 { r := 0, g := 0, b := 0, a := 0 }
        inPos := 0
        pxCount := 0
        outPos := 0
        width := 0
        height := 0
        channels := 0
        colorspace := 0
        phase := .header
        err := .none
        errSub := .none
        errPos := 0
        input := Buffer.ofBytes bytes
        out := t.dec.out })

/-- R253, R203, R254, under any value of MAX_PIXELS and so under the machine's own (a free constant, log 6): a launch of a
running encoder is refused (the model's refusal, log 16); of one that does not run, a PIX of another length is refused;
then a pixel count above MAX_PIXELS; then a capacity below the bound; every other launch is admitted. -/
def Obligations.EncoderLaunchAdmission : Prop :=
  (∀ (limit : Option Nat) (w h : Word32) (cs : Byte) (pix : List Byte) (cap : Nat) (s : State),
    (s.enc.running = true → s.launchEncUnder limit w h cs pix cap = .refused .agentRunning) ∧
    (s.enc.running = false → pix.length ≠ 3 * (w.toNat * h.toNat) →
      s.launchEncUnder limit w h cs pix cap = .refused .pixLength) ∧
    (s.enc.running = false → pix.length = 3 * (w.toNat * h.toNat) →
      (∃ m, limit = some m ∧ m < w.toNat * h.toNat) →
      s.launchEncUnder limit w h cs pix cap = .refused .maxPixels) ∧
    (s.enc.running = false → pix.length = 3 * (w.toNat * h.toNat) →
      (∀ m, limit = some m → w.toNat * h.toNat ≤ m) → cap < 22 + 4 * (w.toNat * h.toNat) →
      s.launchEncUnder limit w h cs pix cap = .refused .outCapacity) ∧
    (s.enc.running = false → pix.length = 3 * (w.toNat * h.toNat) →
      (∀ m, limit = some m → w.toNat * h.toNat ≤ m) → 22 + 4 * (w.toNat * h.toNat) ≤ cap →
      ∃ t : State, s.launchEncUnder limit w h cs pix cap = .next t)) ∧
  ∀ (w h : Word32) (cs : Byte) (pix : List Byte) (cap : Nat) (s : State),
    s.launchEnc w h cs pix cap = s.launchEncUnder Config.maxPixels w h cs pix cap

/-- R253, R203, R254, under any value of MAX_PIXELS and so under the machine's own (a free constant, log 6): a launch of a
running decoder is refused (the model's refusal, log 16); of one that does not run, an input that announces more pixels
than MAX_PIXELS is refused; then a capacity below the bound; every other launch is admitted, whatever the input. The
`29 + 186 * max(0, in_len - 14)` of a host that has not read the header always suffices, an input with no whole header
is admitted with any capacity, and the two numbers are read from a header whatever its magic (log 14). -/
def Obligations.DecoderLaunchAdmission : Prop :=
  (∀ (limit : Option Nat) (bytes : List Byte) (cap : Nat) (s : State),
    (s.dec.running = true → s.launchDecUnder limit bytes cap = .refused .agentRunning) ∧
    (s.dec.running = false → (∃ m, limit = some m ∧ m < announcedPixels bytes) →
      s.launchDecUnder limit bytes cap = .refused .maxPixels) ∧
    (s.dec.running = false → (∀ m, limit = some m → announcedPixels bytes ≤ m) → cap < decCapacity bytes →
      s.launchDecUnder limit bytes cap = .refused .outCapacity) ∧
    (s.dec.running = false → (∀ m, limit = some m → announcedPixels bytes ≤ m) → decCapacity bytes ≤ cap →
      ∃ t : State, s.launchDecUnder limit bytes cap = .next t) ∧
    decCapacity bytes ≤ 29 + 186 * (bytes.length - 14) ∧
    (s.dec.running = false → bytes.length < 14 → ∃ t : State, s.launchDecUnder limit bytes cap = .next t)) ∧
  (∀ (m0 m1 m2 m3 w0 w1 w2 w3 h0 h1 h2 h3 ch cs : Byte) (rest bytes : List Byte) (w h : Word32),
    bytes = m0 :: m1 :: m2 :: m3 :: w0 :: w1 :: w2 :: w3 :: h0 :: h1 :: h2 :: h3 :: ch :: cs :: rest →
    w = BitVec.ofNat 32 (w0.toNat * 2 ^ 24 + w1.toNat * 2 ^ 16 + w2.toNat * 2 ^ 8 + w3.toNat) →
    h = BitVec.ofNat 32 (h0.toNat * 2 ^ 24 + h1.toNat * 2 ^ 16 + h2.toNat * 2 ^ 8 + h3.toNat) →
    announcedPixels bytes = w.toNat * h.toNat ∧
    decCapacity bytes = (rasterHeader w h).length + 3 * min (w.toNat * h.toNat) (62 * (bytes.length - 14))) ∧
  ∀ (bytes : List Byte) (cap : Nat) (s : State),
    s.launchDec bytes cap = s.launchDecUnder Config.maxPixels bytes cap

/-- R256, R9, R221, R223: what the host gets back. At DONE the used bytes of OUT, each as it stands there, and from the
decoder the header fields and the bytes consumed; at FAULT the triple of status registers alone; else nothing. -/
def Obligations.HostTakesResults : Prop :=
  (∀ e : Enc,
    (e.phase = .done → e.outPos ≤ e.out.len →
      ∃ out : List Byte,
        e.result = some out ∧ out.length = e.outPos ∧
        ∀ (k : Nat) (hk : k < out.length), out[k] = Memory.read e.out.mem k) ∧
    (e.phase ≠ .done → e.result = none)) ∧
  (∀ d : Dec,
    (d.phase = .done → d.outPos ≤ d.out.len →
      ∃ got : Decoded,
        d.result = some (.ok got) ∧ got.bytes.length = d.outPos ∧
        (∀ (k : Nat) (hk : k < got.bytes.length), got.bytes[k] = Memory.read d.out.mem k) ∧
        got.width = d.width ∧ got.height = d.height ∧ got.channels = d.channels ∧
        got.colorspace = d.colorspace ∧ got.consumed = d.inPos) ∧
    (d.phase = .fault → d.result = some (.error { err := d.err, errSub := d.errSub, errPos := d.errPos })) ∧
    (d.phase ≠ .done → d.phase ≠ .fault → d.result = none))

/-- R47: no cursor or counter ever decreases, and every chunk step strictly increases px_pos, or both in_pos and
px_count, unless it faults. -/
def Obligations.CursorsAdvance : Prop :=
  ∀ s t : State, s.Inv → step s = .next t →
    s.enc.pxPos ≤ t.enc.pxPos ∧ s.enc.outPos ≤ t.enc.outPos ∧ s.dec.inPos ≤ t.dec.inPos ∧
    s.dec.pxCount ≤ t.dec.pxCount ∧ s.dec.outPos ≤ t.dec.outPos ∧
    (s.mover = some .enc → s.enc.phase = .pixels → s.enc.pxPos < t.enc.pxPos) ∧
    (s.mover = some .dec → s.dec.phase = .chunks → t.dec.phase ≠ .fault →
      s.dec.inPos < t.dec.inPos ∧ s.dec.pxCount < t.dec.pxCount)

/-- R174, R176, R262: every decoder run ends, after at most `2 + min(N, in_len - 14)` steps, in DONE or FAULT, and at
DONE its output has `hdr_len + 3*N` bytes. -/
def Obligations.DecoderRunsEnd : Prop :=
  ∀ (bytes : List Byte) (cap : Nat) (s0 s : State), s0.enc.running = false → s0.launchDec bytes cap = .next s →
    ∃ t : State,
      State.runs (2 + min (announcedPixels bytes) (bytes.length - 14)) s = .next t ∧
      ((t.dec.phase = .done ∧ t.dec.outPos = (rasterHeader t.dec.width t.dec.height).length + 3 * t.dec.n) ∨
        t.dec.phase = .fault)

/-- R143, R144: every encoder run ends in DONE after at most `2 + N` steps, with all pixels consumed and its used length
in the bounds of R143. -/
def Obligations.EncoderRunsEnd : Prop :=
  ∀ (w h : Word32) (cs : Byte) (pix : List Byte) (cap : Nat) (s0 s : State), s0.dec.running = false →
    s0.launchEnc w h cs pix cap = .next s →
    ∃ t : State,
      State.runs (2 + w.toNat * h.toNat) s = .next t ∧ t.enc.phase = .done ∧ t.enc.pxPos = w.toNat * h.toNat ∧
      22 ≤ t.enc.outPos ∧ t.enc.outPos ≤ 22 + 4 * (w.toNat * h.toNat) ∧
      w.toNat * h.toNat ≤ 62 * (t.enc.outPos - 22)

/-! ## The encoder (40_header_codec R110, 41_encoder) -/

/-- R8, R131: when the encoder moves, the step is one encoder step under DELTA_WRAP, then the loop test ("when px_pos =
N: phase <- END"; log 9) and the model's own step count (log 7). -/
def Obligations.StepRunsEncoder : Prop :=
  ∀ s : State, s.mover = some .enc →
    step s =
      match s.enc.step Config.deltaWrap with
      | .next e =>
        .next
          { s with
            enc := if e.phase = .pixels ∧ e.n ≤ e.pxPos then { e with phase := .endMarker } else e
            tick := s.tick + 1 }
      | .fault r => .fault r
      | .refused r => .refused r

/-- R110: the encoder's header step. -/
def Obligations.EncoderHeaderStep : Prop :=
  ∀ (wrap : Bool) (e : Enc), e.phase = .header → e.outPos + 14 ≤ e.out.len →
    e.step wrap =
      .next
        { e with
          out :=
            e.out.store e.outPos
              [0x71, 0x6F, 0x69, 0x66,
                BitVec.ofNat 8 (e.width.toNat / 2 ^ 24), BitVec.ofNat 8 (e.width.toNat / 2 ^ 16),
                BitVec.ofNat 8 (e.width.toNat / 2 ^ 8), BitVec.ofNat 8 e.width.toNat,
                BitVec.ofNat 8 (e.height.toNat / 2 ^ 24), BitVec.ofNat 8 (e.height.toNat / 2 ^ 16),
                BitVec.ofNat 8 (e.height.toNat / 2 ^ 8), BitVec.ofNat 8 e.height.toNat, 3, e.colorspace]
          outPos := e.outPos + 14
          phase := .pixels }

/-- R146 (R132 to R140): the encoder's whole chunk step, for either DELTA_WRAP. `count` is where the rule's `while`
loop stops: the pixels before it equal `prev`, and it is 62, the end of the image, or before a pixel that does not. -/
def Obligations.EncoderChunkStep : Prop :=
  ∀ (wrap : Bool) (e : Enc) (cur : Pixel) (dr dg db : Int) (count : Nat), e.phase = .pixels → e.pxPos < e.n →
    3 * e.n ≤ e.pix.len → e.outPos + 4 ≤ e.out.len →
    cur =
      { r := Memory.read e.pix.mem (3 * e.pxPos)
        g := Memory.read e.pix.mem (3 * e.pxPos + 1)
        b := Memory.read e.pix.mem (3 * e.pxPos + 2)
        a := 255 } →
    dr = delta wrap cur.r e.prev.r → dg = delta wrap cur.g e.prev.g → db = delta wrap cur.b e.prev.b →
    1 ≤ count → count ≤ 62 →
    (∀ k : Nat, 1 ≤ k → k < count → e.pxPos + k < e.n ∧ e.pixel (e.pxPos + k) = e.prev) →
    (count = 62 ∨ e.n ≤ e.pxPos + count ∨ e.pixel (e.pxPos + count) ≠ e.prev) →
    e.step wrap =
      .next
        (if cur = e.prev then
          { e with
            out := e.out.store e.outPos [BitVec.ofNat 8 (0xC0 + (count - 1))]
            outPos := e.outPos + 1
            pxPos := e.pxPos + count }
        else if e.cache.fetch (pxHash cur) = cur then
          { e with
            out := e.out.store e.outPos [BitVec.ofNat 8 (pxHash cur).val]
            outPos := e.outPos + 1
            prev := cur
            pxPos := e.pxPos + 1 }
        else if (-2 ≤ dr ∧ dr ≤ 1) ∧ (-2 ≤ dg ∧ dg ≤ 1) ∧ (-2 ≤ db ∧ db ≤ 1) then
          { e with
            cache := e.cache.set (pxHash cur) cur
            out := e.out.store e.outPos [BitVec.ofInt 8 (0x40 + 16 * (dr + 2) + 4 * (dg + 2) + (db + 2))]
            outPos := e.outPos + 1
            prev := cur
            pxPos := e.pxPos + 1 }
        else if (-32 ≤ dg ∧ dg ≤ 31) ∧ (-8 ≤ dr - dg ∧ dr - dg ≤ 7) ∧ (-8 ≤ db - dg ∧ db - dg ≤ 7) then
          { e with
            cache := e.cache.set (pxHash cur) cur
            out :=
              e.out.store e.outPos
                [BitVec.ofInt 8 (0x80 + (dg + 32)), BitVec.ofInt 8 (16 * (dr - dg + 8) + (db - dg + 8))]
            outPos := e.outPos + 2
            prev := cur
            pxPos := e.pxPos + 1 }
        else
          { e with
            cache := e.cache.set (pxHash cur) cur
            out := e.out.store e.outPos [0xFE, cur.r, cur.g, cur.b]
            outPos := e.outPos + 4
            prev := cur
            pxPos := e.pxPos + 1 })

/-- R134: the repeat count the model computes is the longest stretch of pixels equal to `prev` from the cursor, capped at
62 and at the end of the image. -/
def Obligations.RunCountIsMaximal : Prop :=
  ∀ e : Enc,
    1 ≤ e.runCount ∧ e.runCount ≤ 62 ∧
    (∀ k : Nat, 1 ≤ k → k < e.runCount → e.pxPos + k < e.n ∧ e.pixel (e.pxPos + k) = e.prev) ∧
    (e.runCount = 62 ∨ e.n ≤ e.pxPos + e.runCount ∨ e.pixel (e.pxPos + e.runCount) ≠ e.prev)

/-- R142: the encoder's end-marker step. -/
def Obligations.EncoderEndStep : Prop :=
  ∀ (wrap : Bool) (e : Enc), e.phase = .endMarker → e.outPos + 8 ≤ e.out.len →
    e.step wrap =
      .next
        { e with
          out := e.out.store e.outPos [0, 0, 0, 0, 0, 0, 0, 1]
          outPos := e.outPos + 8
          phase := .done }

/-- R141, R147(e): every chunk the encoder emits is the encoding of one well-formed chunk that is not RGBA, and its first
byte is never 0xFF; a 0xFF elsewhere in it is a payload byte of RGB or the second byte of LUMA. -/
def Obligations.EncoderNeverEmitsRgba : Prop :=
  ∀ (wrap : Bool) (e t : Enc), e.phase = .pixels → e.pxPos < e.n → e.step wrap = .next t →
    ∃ i : Instr, i.framing = .chunk ∧ i.wellFormed = true ∧ i ≠ .rgba ∧ (encode i).head? ≠ some 0xFF ∧
      (0xFF ∈ encode i → (∃ r g b, i = .rgb r g b) ∨ ∃ dg drDg dbDg, i = .luma dg drDg dbDg) ∧
      t.out = e.out.store e.outPos (encode i) ∧ t.outPos = e.outPos + (encode i).length

/-- R140, R147(c): after a chunk step `prev` is the last pixel consumed; and unless it was a RUN, its slot holds it. -/
def Obligations.EncoderKeepsPrevCached : Prop :=
  ∀ (wrap : Bool) (e t : Enc), e.phase = .pixels → e.pxPos < e.n → e.step wrap = .next t →
    t.prev = e.pixel (t.pxPos - 1) ∧ (e.cur ≠ e.prev → t.cache.fetch (pxHash t.prev) = t.prev)

/-! ## The decoder inverts the encoder (R46, R118 to R120, R178) -/

/-- R46, R178, one chunk: an encoder with the invariant in PIXELS and a decoder in CHUNKS that agree on `prev`, cache,
pixel count and N, with the bytes of the encoder's next chunk at the decoder's cursor. The decoder's step then takes
exactly those bytes, agrees again, and has put out exactly the pixels the encoder consumed. -/
def Obligations.ChunkLockStep : Prop :=
  ∀ (wrap : Bool) (e e' : Enc) (s : State), e.Inv → e.phase = .pixels → e.step wrap = .next e' →
    s.dec.phase = .chunks → s.dec.n = e.n → s.dec.prev = e.prev → s.dec.cache = e.cache → s.dec.pxCount = e.pxPos →
    s.dec.out.wf = true → s.dec.outPos + 3 * (e'.pxPos - e.pxPos) ≤ s.dec.out.len →
    s.dec.inPos + (e'.outPos - e.outPos) ≤ s.dec.input.len →
    (∀ k : Nat, k < e'.outPos - e.outPos →
      Memory.read s.dec.input.mem (s.dec.inPos + k) = Memory.read e'.out.mem (e.outPos + k)) →
    ∃ t : State,
      stepDec s = .next t ∧ t.dec.prev = e'.prev ∧ t.dec.cache = e'.cache ∧ t.dec.pxCount = e'.pxPos ∧
      t.dec.inPos = s.dec.inPos + (e'.outPos - e.outPos) ∧ t.dec.phase ≠ .fault ∧
      t.dec.outPos = s.dec.outPos + 3 * (e'.pxPos - e.pxPos) ∧
      ∀ k : Nat, k < 3 * (e'.pxPos - e.pxPos) →
        Memory.read t.dec.out.mem (s.dec.outPos + k) = Memory.read e.pix.mem (3 * e.pxPos + k)

/-- R118: the raster wrapper reads exactly the canonical raster buffers. -/
def Obligations.CanonicalRasterIsRead : Prop :=
  ∀ (bytes : List Byte) (w h : Word32) (p : List Byte),
    parseRaster bytes = some (w, h, p) ↔
      bytes = rasterHeader w h ++ p ∧ p.length = 3 * (w.toNat * h.toNat)

/-- R120, R178 (property T1): for every canonical raster buffer whose pixel count the implementation admits, any
ENC_COLORSPACE and either DELTA_WRAP, encoding answers a stream and decoding that stream gives the raster back byte for
byte. -/
def Obligations.RasterRoundTrip : Prop :=
  ∀ (cs : Byte) (w h : Word32) (p : List Byte), p.length = 3 * (w.toNat * h.toNat) →
    admitsPixels Config.maxPixels (w.toNat * h.toNat) = true →
    ∃ stream : List Byte,
      encodeRaster cs (rasterHeader w h ++ p) = .next stream ∧
      decodeToRaster stream = .next (.ok (rasterHeader w h ++ p))
end

