-- ==== Sys2Proof/Laws/Memory.lean ====
section
/-! SUPPORT. The laws of memory: what a read gives after a write, and that every write keeps the canonical form. -/

namespace Sys2Proof.Machine

/-! ## The canonical form -/

theorem Memory.wfFrom_cons (lo a : Nat) (b : Byte) (m : Memory) :
    Memory.wfFrom lo ((a, b) :: m) = true ↔ lo ≤ a ∧ b ≠ unlistedByte ∧ Memory.wfFrom (a + 1) m = true := by
  simp only [Memory.wfFrom, Bool.and_eq_true, decide_eq_true_eq, and_assoc]

theorem Memory.wfFrom_mono {lo hi : Nat} {m : Memory} (h : lo ≤ hi) (hm : Memory.wfFrom hi m = true) :
    Memory.wfFrom lo m = true := by
  cases m with
  | nil => rfl
  | cons c m =>
    obtain ⟨a, b⟩ := c
    rw [Memory.wfFrom_cons] at hm ⊢
    exact ⟨by omega, hm.2⟩

/-- Below its first address a canonical memory lists nothing. -/
theorem Memory.read_below {lo x : Nat} {m : Memory} (hm : Memory.wfFrom lo m = true) (hx : x < lo) :
    Memory.read m x = unlistedByte := by
  induction m generalizing lo with
  | nil => rfl
  | cons c m ih =>
    obtain ⟨a, b⟩ := c
    rw [Memory.wfFrom_cons] at hm
    have hne : x ≠ a := by omega
    simpa [Memory.read, hne] using ih hm.2.2 (by omega)

theorem Memory.write_wfFrom {lo x : Nat} {v : Byte} {m : Memory} (hm : Memory.wfFrom lo m = true) (hx : lo ≤ x) :
    Memory.wfFrom lo (Memory.write m x v) = true := by
  induction m generalizing lo with
  | nil =>
    by_cases hv : v = unlistedByte
    · simp [Memory.write, hv, Memory.wfFrom]
    · simpa [Memory.write, hv, Memory.wfFrom_cons] using ⟨hx, rfl⟩
  | cons c m ih =>
    obtain ⟨a, b⟩ := c
    have hc := (Memory.wfFrom_cons lo a b m).1 hm
    unfold Memory.write
    by_cases h1 : x < a
    · rw [if_pos h1]
      split
      · exact hm
      next hv =>
        rw [Memory.wfFrom_cons, Memory.wfFrom_cons]
        exact ⟨hx, hv, by omega, hc.2.1, hc.2.2⟩
    · rw [if_neg h1]
      by_cases h2 : x = a
      · rw [if_pos h2]
        split
        · exact Memory.wfFrom_mono (by omega) hc.2.2
        next hv =>
          rw [Memory.wfFrom_cons]
          exact ⟨hx, hv, h2 ▸ hc.2.2⟩
      · rw [if_neg h2, Memory.wfFrom_cons]
        exact ⟨hc.1, hc.2.1, ih hc.2.2 (by omega)⟩

/-- Storing a byte keeps the canonical form. -/
theorem Memory.write_wf {m : Memory} (hm : m.wf = true) (x : Nat) (v : Byte) : (Memory.write m x v).wf = true :=
  Memory.write_wfFrom hm (Nat.zero_le x)

/-- Storing bytes keeps the canonical form. -/
theorem Memory.writeBytes_wf {m : Memory} (hm : m.wf = true) (a : Nat) (bs : List Byte) :
    (Memory.writeBytes m a bs).wf = true := by
  induction bs generalizing m a with
  | nil => exact hm
  | cons b bs ih => exact ih (Memory.write_wf hm a b) (a + 1)

/-! ## Reading after a write -/

/-- A write leaves every other address alone. -/
theorem Memory.read_write_other (m : Memory) {x y : Nat} (v : Byte) (h : y ≠ x) :
    Memory.read (Memory.write m x v) y = Memory.read m y := by
  induction m with
  | nil =>
    unfold Memory.write
    split <;> simp [Memory.read, h]
  | cons c m ih =>
    obtain ⟨a, b⟩ := c
    unfold Memory.write
    split
    · split <;> simp [Memory.read, h]
    · split
      next h2 =>
        subst h2
        split <;> simp [Memory.read, h]
      · simp [Memory.read, ih]

/-- A read at the address written gives the byte written. -/
theorem Memory.read_write_same {lo : Nat} {m : Memory} (hm : Memory.wfFrom lo m = true) (x : Nat) (v : Byte) :
    Memory.read (Memory.write m x v) x = v := by
  induction m generalizing lo with
  | nil =>
    unfold Memory.write
    split
    next hv => simp [Memory.read, hv]
    · simp [Memory.read]
  | cons c m ih =>
    obtain ⟨a, b⟩ := c
    have hc := (Memory.wfFrom_cons lo a b m).1 hm
    unfold Memory.write
    split
    next h1 =>
      split
      next hv =>
        have hne : x ≠ a := by omega
        simpa [Memory.read, hne, hv] using Memory.read_below hc.2.2 (by omega)
      · simp [Memory.read]
    · split
      next h2 =>
        split
        next hv => rw [hv]; exact Memory.read_below hc.2.2 (by omega)
        · simp [Memory.read]
      next h2 => simpa [Memory.read, h2] using ih hc.2.2

/-- Storing bytes leaves every address outside them alone. -/
theorem Memory.read_writeBytes_other (m : Memory) (a : Nat) (bs : List Byte) {y : Nat}
    (h : y < a ∨ a + bs.length ≤ y) : Memory.read (Memory.writeBytes m a bs) y = Memory.read m y := by
  induction bs generalizing m a with
  | nil => rfl
  | cons b bs ih =>
    simp only [List.length_cons] at h
    rw [Memory.writeBytes, ih _ _ (by omega), Memory.read_write_other _ _ (by omega)]

/-- Reading a stored byte gives it back. -/
theorem Memory.read_writeBytes_same {m : Memory} (hm : m.wf = true) (a : Nat) (bs : List Byte) {k : Nat}
    (h : k < bs.length) : Memory.read (Memory.writeBytes m a bs) (a + k) = bs[k] := by
  induction bs generalizing m a k with
  | nil => simp at h
  | cons b bs ih =>
    rw [Memory.writeBytes]
    cases k with
    | zero =>
      rw [Memory.read_writeBytes_other _ _ _ (by omega)]
      simpa using Memory.read_write_same hm a b
    | succ k =>
      have := ih (Memory.write_wf hm a b) (a + 1) (k := k) (by simpa using h)
      simpa [Nat.add_assoc, Nat.add_comm 1 k] using this

/-! ## Addresses listed -/

theorem Memory.write_bound {n x : Nat} {v : Byte} {m : Memory} (hm : ∀ c ∈ m, c.1 < n) (hx : x < n) :
    ∀ c ∈ Memory.write m x v, c.1 < n := by
  induction m with
  | nil =>
    unfold Memory.write
    split <;> simp [hx]
  | cons c m ih =>
    obtain ⟨a, b⟩ := c
    simp only [List.mem_cons, forall_eq_or_imp] at hm
    unfold Memory.write
    split
    · split <;> simpa [hx] using hm
    · split
      · split
        · exact hm.2
        · simpa [hx] using hm.2
      · simpa using ⟨hm.1, by simpa using ih hm.2⟩

theorem Memory.writeBytes_bound {n a : Nat} {bs : List Byte} {m : Memory} (hm : ∀ c ∈ m, c.1 < n)
    (h : a + bs.length ≤ n) : ∀ c ∈ Memory.writeBytes m a bs, c.1 < n := by
  induction bs generalizing m a with
  | nil => exact hm
  | cons b bs ih =>
    simp only [List.length_cons] at h
    exact ih (Memory.write_bound hm (by omega)) (by omega)

/-! ## Buffers -/

theorem Buffer.wf_iff (b : Buffer) : b.wf = true ↔ b.mem.wf = true ∧ ∀ c ∈ b.mem, c.1 < b.len := by
  simp [Buffer.wf, List.all_eq_true]

/-- A store within the bounds keeps a buffer well formed. -/
theorem Buffer.store_wf {b : Buffer} (hb : b.wf = true) {a : Nat} {bs : List Byte} (h : a + bs.length ≤ b.len) :
    (b.store a bs).wf = true := by
  rw [Buffer.wf_iff] at hb ⊢
  exact ⟨Memory.writeBytes_wf hb.1 a bs, Memory.writeBytes_bound hb.2 h⟩

/-- The empty buffer of any capacity is well formed. -/
theorem Buffer.empty_wf (n : Nat) : ({ len := n, mem := [] } : Buffer).wf = true := rfl

/-- The host's buffer is well formed. -/
theorem Buffer.ofBytes_wf (bs : List Byte) : (Buffer.ofBytes bs).wf = true :=
  Buffer.store_wf (Buffer.empty_wf bs.length) (a := 0) (by simp)

/-- The host's buffer holds the host's bytes. -/
theorem Buffer.read_ofBytes (bs : List Byte) {k : Nat} (h : k < bs.length) :
    Memory.read (Buffer.ofBytes bs).mem k = bs[k] := by
  have := Memory.read_writeBytes_same (m := []) rfl 0 bs h
  simpa [Buffer.ofBytes] using this

/-- How many bytes a window has: those that exist. -/
theorem Buffer.window_length (b : Buffer) (a n : Nat) : (b.window a n).length = min n (b.len - a) := by
  induction n generalizing a with
  | zero => simp [Buffer.window]
  | succ n ih =>
    unfold Buffer.window
    split
    · simp only [List.length_cons, ih]; omega
    · simp; omega

/-- The bytes of a window are the buffer's. -/
theorem Buffer.window_getElem (b : Buffer) (a n k : Nat) (h : k < (b.window a n).length) :
    (b.window a n)[k] = Memory.read b.mem (a + k) := by
  induction n generalizing a k with
  | zero => simp [Buffer.window] at h
  | succ n ih =>
    unfold Buffer.window at h ⊢
    split at h
    next hlt =>
      simp only [hlt, if_true]
      cases k with
      | zero => simp
      | succ k => simpa [Nat.add_assoc, Nat.add_comm 1 k] using ih (a + 1) k (by simpa using h)
    · simp at h

/-- A window of a buffer begins with any bytes that stand there. -/
theorem Buffer.window_eq_append {b : Buffer} {a n : Nat} {bs : List Byte} (hn : bs.length ≤ n)
    (hlen : a + bs.length ≤ b.len) (h : ∀ k, (hk : k < bs.length) → Memory.read b.mem (a + k) = bs[k]) :
    b.window a n = bs ++ b.window (a + bs.length) (n - bs.length) := by
  induction bs generalizing a n with
  | nil => simp
  | cons c bs ih =>
    simp only [List.length_cons] at hn hlen
    obtain ⟨n, rfl⟩ : ∃ k, n = k + 1 := ⟨n - 1, by omega⟩
    have h0 := h 0 (by simp)
    have ih' := ih (a := a + 1) (n := n) (by omega) (by omega) fun k hk => by
      have := h (k + 1) (by simpa using hk)
      simpa [Nat.add_assoc, Nat.add_comm 1 k] using this
    have hlt : a < b.len := by omega
    rw [Buffer.window, if_pos hlt, ih']
    simp only [Nat.add_zero, List.getElem_cons_zero] at h0
    simp [h0, Nat.add_assoc, Nat.add_comm 1]

/-- The host reads back all of a buffer it filled. -/
theorem Buffer.window_ofBytes (bs : List Byte) : (Buffer.ofBytes bs).window 0 bs.length = bs := by
  have h := Buffer.window_eq_append (b := Buffer.ofBytes bs) (a := 0) (n := bs.length) (bs := bs) (Nat.le_refl _)
    (by simp [Buffer.ofBytes]) fun k hk => by simpa using Buffer.read_ofBytes bs hk
  simpa [Buffer.window] using h

end Sys2Proof.Machine
end

