-- ==== Sys2Proof/Laws/State.lean ====
section
/-! SUPPORT. One lemma per field per update of the state, true by unfolding once, so that no later proof unfolds a
record update. -/

namespace Sys2Proof.Machine

@[simp] theorem Dec.raise_prev (k : ErrKind) (u : ErrSub) (d : Dec) : (d.raise k u).prev = d.prev := rfl
@[simp] theorem Dec.raise_cache (k : ErrKind) (u : ErrSub) (d : Dec) : (d.raise k u).cache = d.cache := rfl
@[simp] theorem Dec.raise_inPos (k : ErrKind) (u : ErrSub) (d : Dec) : (d.raise k u).inPos = d.inPos := rfl
@[simp] theorem Dec.raise_pxCount (k : ErrKind) (u : ErrSub) (d : Dec) : (d.raise k u).pxCount = d.pxCount := rfl
@[simp] theorem Dec.raise_outPos (k : ErrKind) (u : ErrSub) (d : Dec) : (d.raise k u).outPos = d.outPos := rfl
@[simp] theorem Dec.raise_width (k : ErrKind) (u : ErrSub) (d : Dec) : (d.raise k u).width = d.width := rfl
@[simp] theorem Dec.raise_height (k : ErrKind) (u : ErrSub) (d : Dec) : (d.raise k u).height = d.height := rfl
@[simp] theorem Dec.raise_channels (k : ErrKind) (u : ErrSub) (d : Dec) : (d.raise k u).channels = d.channels := rfl
@[simp] theorem Dec.raise_colorspace (k : ErrKind) (u : ErrSub) (d : Dec) : (d.raise k u).colorspace = d.colorspace := rfl
@[simp] theorem Dec.raise_phase (k : ErrKind) (u : ErrSub) (d : Dec) : (d.raise k u).phase = .fault := rfl
@[simp] theorem Dec.raise_err (k : ErrKind) (u : ErrSub) (d : Dec) : (d.raise k u).err = k := rfl
@[simp] theorem Dec.raise_errSub (k : ErrKind) (u : ErrSub) (d : Dec) : (d.raise k u).errSub = u := rfl
@[simp] theorem Dec.raise_errPos (k : ErrKind) (u : ErrSub) (d : Dec) : (d.raise k u).errPos = d.inPos := rfl
@[simp] theorem Dec.raise_input (k : ErrKind) (u : ErrSub) (d : Dec) : (d.raise k u).input = d.input := rfl
@[simp] theorem Dec.raise_out (k : ErrKind) (u : ErrSub) (d : Dec) : (d.raise k u).out = d.out := rfl

@[simp] theorem Dec.insert_prev (p : Pixel) (d : Dec) : (d.insert p).prev = d.prev := rfl
@[simp] theorem Dec.insert_cache (p : Pixel) (d : Dec) : (d.insert p).cache = d.cache.store (pxHash p) p := rfl
@[simp] theorem Dec.insert_inPos (p : Pixel) (d : Dec) : (d.insert p).inPos = d.inPos := rfl
@[simp] theorem Dec.insert_pxCount (p : Pixel) (d : Dec) : (d.insert p).pxCount = d.pxCount := rfl
@[simp] theorem Dec.insert_outPos (p : Pixel) (d : Dec) : (d.insert p).outPos = d.outPos := rfl
@[simp] theorem Dec.insert_width (p : Pixel) (d : Dec) : (d.insert p).width = d.width := rfl
@[simp] theorem Dec.insert_height (p : Pixel) (d : Dec) : (d.insert p).height = d.height := rfl
@[simp] theorem Dec.insert_channels (p : Pixel) (d : Dec) : (d.insert p).channels = d.channels := rfl
@[simp] theorem Dec.insert_colorspace (p : Pixel) (d : Dec) : (d.insert p).colorspace = d.colorspace := rfl
@[simp] theorem Dec.insert_phase (p : Pixel) (d : Dec) : (d.insert p).phase = d.phase := rfl
@[simp] theorem Dec.insert_err (p : Pixel) (d : Dec) : (d.insert p).err = d.err := rfl
@[simp] theorem Dec.insert_errSub (p : Pixel) (d : Dec) : (d.insert p).errSub = d.errSub := rfl
@[simp] theorem Dec.insert_errPos (p : Pixel) (d : Dec) : (d.insert p).errPos = d.errPos := rfl
@[simp] theorem Dec.insert_input (p : Pixel) (d : Dec) : (d.insert p).input = d.input := rfl
@[simp] theorem Dec.insert_out (p : Pixel) (d : Dec) : (d.insert p).out = d.out := rfl

@[simp] theorem Enc.insertCur_prev (e : Enc) : (e.insertCur).prev = e.prev := rfl
@[simp] theorem Enc.insertCur_cache (e : Enc) : (e.insertCur).cache = e.cache.store (pxHash e.cur) e.cur := rfl
@[simp] theorem Enc.insertCur_pxPos (e : Enc) : (e.insertCur).pxPos = e.pxPos := rfl
@[simp] theorem Enc.insertCur_outPos (e : Enc) : (e.insertCur).outPos = e.outPos := rfl
@[simp] theorem Enc.insertCur_width (e : Enc) : (e.insertCur).width = e.width := rfl
@[simp] theorem Enc.insertCur_height (e : Enc) : (e.insertCur).height = e.height := rfl
@[simp] theorem Enc.insertCur_colorspace (e : Enc) : (e.insertCur).colorspace = e.colorspace := rfl
@[simp] theorem Enc.insertCur_phase (e : Enc) : (e.insertCur).phase = e.phase := rfl
@[simp] theorem Enc.insertCur_pix (e : Enc) : (e.insertCur).pix = e.pix := rfl
@[simp] theorem Enc.insertCur_out (e : Enc) : (e.insertCur).out = e.out := rfl

@[simp] theorem Buffer.store_len (b : Buffer) (a : Nat) (bs : List Byte) : (b.store a bs).len = b.len := rfl
@[simp] theorem Buffer.store_mem (b : Buffer) (a : Nat) (bs : List Byte) : (b.store a bs).mem = Memory.writeBytes b.mem a bs := rfl

@[simp] theorem Buffer.ofBytes_len (bs : List Byte) : (Buffer.ofBytes bs).len = bs.length := rfl
@[simp] theorem Buffer.ofBytes_mem (bs : List Byte) : (Buffer.ofBytes bs).mem = Memory.writeBytes [] 0 bs := rfl

@[simp] theorem State.endDec_enc (s : State) : (s.endDec).enc = s.enc := rfl
@[simp] theorem State.endDec_dec (s : State) : (s.endDec).dec = s.dec.loopTest := rfl
@[simp] theorem State.endDec_tick (s : State) : (s.endDec).tick = s.tick + 1 := rfl

@[simp] theorem State.endEnc_enc (s : State) : (s.endEnc).enc = s.enc.loopTest := rfl
@[simp] theorem State.endEnc_dec (s : State) : (s.endEnc).dec = s.dec := rfl
@[simp] theorem State.endEnc_tick (s : State) : (s.endEnc).tick = s.tick + 1 := rfl

@[simp] theorem State.raiseDecode_enc (x : DecodeError) (s : State) : (s.raiseDecode x).enc = s.enc := rfl
@[simp] theorem State.raiseDecode_dec (x : DecodeError) (s : State) : (s.raiseDecode x).dec = s.dec.raiseDecode x := rfl
@[simp] theorem State.raiseDecode_tick (x : DecodeError) (s : State) : (s.raiseDecode x).tick = s.tick := rfl

@[simp] theorem Dec.loopTest_prev (d : Dec) : d.loopTest.prev = d.prev := by
  unfold Dec.loopTest
  split <;> rfl
@[simp] theorem Dec.loopTest_cache (d : Dec) : d.loopTest.cache = d.cache := by
  unfold Dec.loopTest
  split <;> rfl
@[simp] theorem Dec.loopTest_inPos (d : Dec) : d.loopTest.inPos = d.inPos := by
  unfold Dec.loopTest
  split <;> rfl
@[simp] theorem Dec.loopTest_pxCount (d : Dec) : d.loopTest.pxCount = d.pxCount := by
  unfold Dec.loopTest
  split <;> rfl
@[simp] theorem Dec.loopTest_outPos (d : Dec) : d.loopTest.outPos = d.outPos := by
  unfold Dec.loopTest
  split <;> rfl
@[simp] theorem Dec.loopTest_width (d : Dec) : d.loopTest.width = d.width := by
  unfold Dec.loopTest
  split <;> rfl
@[simp] theorem Dec.loopTest_height (d : Dec) : d.loopTest.height = d.height := by
  unfold Dec.loopTest
  split <;> rfl
@[simp] theorem Dec.loopTest_channels (d : Dec) : d.loopTest.channels = d.channels := by
  unfold Dec.loopTest
  split <;> rfl
@[simp] theorem Dec.loopTest_colorspace (d : Dec) : d.loopTest.colorspace = d.colorspace := by
  unfold Dec.loopTest
  split <;> rfl
@[simp] theorem Dec.loopTest_err (d : Dec) : d.loopTest.err = d.err := by
  unfold Dec.loopTest
  split <;> rfl
@[simp] theorem Dec.loopTest_errSub (d : Dec) : d.loopTest.errSub = d.errSub := by
  unfold Dec.loopTest
  split <;> rfl
@[simp] theorem Dec.loopTest_errPos (d : Dec) : d.loopTest.errPos = d.errPos := by
  unfold Dec.loopTest
  split <;> rfl
@[simp] theorem Dec.loopTest_input (d : Dec) : d.loopTest.input = d.input := by
  unfold Dec.loopTest
  split <;> rfl
@[simp] theorem Dec.loopTest_out (d : Dec) : d.loopTest.out = d.out := by
  unfold Dec.loopTest
  split <;> rfl

@[simp] theorem Enc.loopTest_prev (e : Enc) : e.loopTest.prev = e.prev := by
  unfold Enc.loopTest
  split <;> rfl
@[simp] theorem Enc.loopTest_cache (e : Enc) : e.loopTest.cache = e.cache := by
  unfold Enc.loopTest
  split <;> rfl
@[simp] theorem Enc.loopTest_pxPos (e : Enc) : e.loopTest.pxPos = e.pxPos := by
  unfold Enc.loopTest
  split <;> rfl
@[simp] theorem Enc.loopTest_outPos (e : Enc) : e.loopTest.outPos = e.outPos := by
  unfold Enc.loopTest
  split <;> rfl
@[simp] theorem Enc.loopTest_width (e : Enc) : e.loopTest.width = e.width := by
  unfold Enc.loopTest
  split <;> rfl
@[simp] theorem Enc.loopTest_height (e : Enc) : e.loopTest.height = e.height := by
  unfold Enc.loopTest
  split <;> rfl
@[simp] theorem Enc.loopTest_colorspace (e : Enc) : e.loopTest.colorspace = e.colorspace := by
  unfold Enc.loopTest
  split <;> rfl
@[simp] theorem Enc.loopTest_pix (e : Enc) : e.loopTest.pix = e.pix := by
  unfold Enc.loopTest
  split <;> rfl
@[simp] theorem Enc.loopTest_out (e : Enc) : e.loopTest.out = e.out := by
  unfold Enc.loopTest
  split <;> rfl

@[simp] theorem Dec.raiseDecode_prev (x : DecodeError) (d : Dec) : (d.raiseDecode x).prev = d.prev := by
  cases x <;> rfl
@[simp] theorem Dec.raiseDecode_cache (x : DecodeError) (d : Dec) : (d.raiseDecode x).cache = d.cache := by
  cases x <;> rfl
@[simp] theorem Dec.raiseDecode_inPos (x : DecodeError) (d : Dec) : (d.raiseDecode x).inPos = d.inPos := by
  cases x <;> rfl
@[simp] theorem Dec.raiseDecode_pxCount (x : DecodeError) (d : Dec) : (d.raiseDecode x).pxCount = d.pxCount := by
  cases x <;> rfl
@[simp] theorem Dec.raiseDecode_outPos (x : DecodeError) (d : Dec) : (d.raiseDecode x).outPos = d.outPos := by
  cases x <;> rfl
@[simp] theorem Dec.raiseDecode_width (x : DecodeError) (d : Dec) : (d.raiseDecode x).width = d.width := by
  cases x <;> rfl
@[simp] theorem Dec.raiseDecode_height (x : DecodeError) (d : Dec) : (d.raiseDecode x).height = d.height := by
  cases x <;> rfl
@[simp] theorem Dec.raiseDecode_channels (x : DecodeError) (d : Dec) : (d.raiseDecode x).channels = d.channels := by
  cases x <;> rfl
@[simp] theorem Dec.raiseDecode_colorspace (x : DecodeError) (d : Dec) : (d.raiseDecode x).colorspace = d.colorspace := by
  cases x <;> rfl
@[simp] theorem Dec.raiseDecode_input (x : DecodeError) (d : Dec) : (d.raiseDecode x).input = d.input := by
  cases x <;> rfl
@[simp] theorem Dec.raiseDecode_out (x : DecodeError) (d : Dec) : (d.raiseDecode x).out = d.out := by
  cases x <;> rfl
@[simp] theorem Dec.raiseDecode_phase (x : DecodeError) (d : Dec) : (d.raiseDecode x).phase = .fault := by
  cases x <;> rfl
@[simp] theorem Dec.raiseDecode_err (x : DecodeError) (d : Dec) : (d.raiseDecode x).err = .formatError := by
  cases x <;> rfl
@[simp] theorem Dec.raiseDecode_errPos (x : DecodeError) (d : Dec) : (d.raiseDecode x).errPos = d.inPos := by
  cases x <;> rfl

@[simp] theorem Dec.loopTest_n (d : Dec) : d.loopTest.n = d.n := by simp [Dec.n]
@[simp] theorem Enc.loopTest_n (e : Enc) : e.loopTest.n = e.n := by simp [Enc.n]

/-- The loop test moves the phase exactly when the pixels are exhausted (R161). -/
theorem Dec.loopTest_phase (d : Dec) :
    d.loopTest.phase = if d.phase = .chunks ∧ ¬ d.pxCount < d.n then .endMarker else d.phase := by
  unfold Dec.loopTest
  split <;> rfl

/-- The loop test moves the phase exactly when the pixels are exhausted (R131). -/
theorem Enc.loopTest_phase (e : Enc) :
    e.loopTest.phase = if e.phase = .pixels ∧ ¬ e.pxPos < e.n then .endMarker else e.phase := by
  unfold Enc.loopTest
  split <;> rfl

/-- A faulted or finished decoder is left alone by the loop test. -/
theorem Dec.loopTest_of_ne {d : Dec} (h : d.phase ≠ .chunks) : d.loopTest = d := by
  simp [Dec.loopTest, h]

/-- An encoder outside PIXELS is left alone by the loop test. -/
theorem Enc.loopTest_of_ne {e : Enc} (h : e.phase ≠ .pixels) : e.loopTest = e := by
  simp [Enc.loopTest, h]

end Sys2Proof.Machine
end

