-- ==== Sys2Proof/Laws/Ops.lean ====
section
/-! SUPPORT. One law per shared operation: what it answers, and when. -/

namespace Sys2Proof.Machine

/-! ## Sequencing -/

@[simp] theorem andThen_next {σ τ : Type} (s : σ) (f : σ → Answer τ) : andThen (.next s) f = f s := rfl
@[simp] theorem andThen_fault {σ τ : Type} (r : Fault) (f : σ → Answer τ) : andThen (.fault r) f = .fault r := rfl
@[simp] theorem andThen_refused {σ τ : Type} (r : Refusal) (f : σ → Answer τ) :
    andThen (.refused r) f = .refused r := rfl

/-- A sequence answers a next state exactly through one. -/
theorem andThen_eq_next {σ τ : Type} {x : Answer σ} {f : σ → Answer τ} {t : τ} :
    andThen x f = .next t ↔ ∃ s, x = .next s ∧ f s = .next t := by
  cases x <;> simp

/-! ## One agent -/

/-- An operation of the decoder answers a next state exactly when it does on the registers, and changes only them. -/
theorem State.onDec_eq_next {s t : State} {f : Dec → Answer Dec} :
    s.onDec f = .next t ↔ ∃ d, f s.dec = .next d ∧ t = { s with dec := d } := by
  unfold State.onDec
  rw [andThen_eq_next]
  exact exists_congr fun d => and_congr_right fun _ => by rw [Host.Outcome.next.injEq, eq_comm]

/-- An operation of the encoder answers a next state exactly when it does on the registers, and changes only them. -/
theorem State.onEnc_eq_next {s t : State} {f : Enc → Answer Enc} :
    s.onEnc f = .next t ↔ ∃ e, f s.enc = .next e ∧ t = { s with enc := e } := by
  unfold State.onEnc
  rw [andThen_eq_next]
  exact exists_congr fun e => and_congr_right fun _ => by rw [Host.Outcome.next.injEq, eq_comm]

/-! ## Emitting -/

/-- Emission of the decoder within the capacity. -/
theorem Dec.emit_of_room {bs : List Byte} {d : Dec} (h : d.outPos + bs.length ≤ d.out.len) :
    d.emit bs = .next { d with out := d.out.store d.outPos bs, outPos := d.outPos + bs.length } := if_pos h

/-- Emission of the decoder answers a next state only within the capacity. -/
theorem Dec.emit_eq_next {bs : List Byte} {d t : Dec} :
    d.emit bs = .next t ↔
      d.outPos + bs.length ≤ d.out.len ∧
        t = { d with out := d.out.store d.outPos bs, outPos := d.outPos + bs.length } := by
  unfold Dec.emit
  split
  next h => rw [Host.Outcome.next.injEq, eq_comm, and_iff_right h]
  next h => exact ⟨fun h' => (nomatch h'), fun h' => absurd h'.1 h⟩

/-- Emission of the encoder within the capacity. -/
theorem Enc.emit_of_room {bs : List Byte} {e : Enc} (h : e.outPos + bs.length ≤ e.out.len) :
    e.emit bs = .next { e with out := e.out.store e.outPos bs, outPos := e.outPos + bs.length } := if_pos h

/-- Emission of the encoder answers a next state only within the capacity. -/
theorem Enc.emit_eq_next {bs : List Byte} {e t : Enc} :
    e.emit bs = .next t ↔
      e.outPos + bs.length ≤ e.out.len ∧
        t = { e with out := e.out.store e.outPos bs, outPos := e.outPos + bs.length } := by
  unfold Enc.emit
  split
  next h => rw [Host.Outcome.next.injEq, eq_comm, and_iff_right h]
  next h => exact ⟨fun h' => (nomatch h'), fun h' => absurd h'.1 h⟩

@[simp] theorem Pixel.rgb_length (p : Pixel) : p.rgb.length = 3 := rfl

/-- `n` pixels are `3 * n` bytes (R171). -/
@[simp] theorem Pixel.repeated_length (p : Pixel) (n : Nat) : (p.repeated n).length = 3 * n := by
  induction n with
  | zero => rfl
  | succ n ih => simp [Pixel.repeated, ih]; omega

/-- One pixel is its three bytes. -/
@[simp] theorem Pixel.repeated_one (p : Pixel) : p.repeated 1 = [p.r, p.g, p.b] := rfl

/-- Repeating a pixel, as a list of copies. -/
theorem Pixel.repeated_eq (p : Pixel) (n : Nat) : p.repeated n = (List.replicate n [p.r, p.g, p.b]).flatten := by
  induction n with
  | zero => rfl
  | succ n ih => simp [Pixel.repeated, ih, List.replicate_succ, Pixel.rgb]

/-! ## Dispatch -/

/-- The framings a phase dispatches (R161, R162). -/
theorem Dec.framing_eq_chunk {d : Dec} : d.framing = some .chunk ↔ d.phase = .chunks ∧ d.pxCount < d.n := by
  unfold Dec.framing
  cases d.phase <;> simp

theorem Dec.framing_eq_header {d : Dec} : d.framing = some .header ↔ d.phase = .header := by
  unfold Dec.framing
  cases d.phase <;> simp
  split <;> simp

theorem Dec.framing_eq_end {d : Dec} :
    d.framing = some .endMarker ↔ d.phase = .endMarker ∨ (d.phase = .chunks ∧ ¬ d.pxCount < d.n) := by
  unfold Dec.framing
  cases d.phase <;> simp

theorem Dec.framing_eq_none {d : Dec} : d.framing = none ↔ d.running = false := by
  unfold Dec.framing Dec.running
  cases d.phase <;> simp
  split <;> simp

/-- A dispatched unit whose bytes are present runs its body. -/
theorem Dec.dispatch_of_ready {i : Instr} {d : Dec} {body : Dec → Answer Dec} (hf : d.framing = some i.framing)
    (hl : (if i.framing = .header then 0 else d.inPos) + i.length ≤ d.input.len) : d.dispatch i body = body d := by
  rw [Dec.dispatch, if_pos hf, if_pos hl]

/-- A dispatched unit whose bytes are missing raises the error and does nothing else (R164). -/
theorem Dec.dispatch_of_missing {i : Instr} {d : Dec} {body : Dec → Answer Dec} (hf : d.framing = some i.framing)
    (hl : d.input.len < (if i.framing = .header then 0 else d.inPos) + i.length) :
    d.dispatch i body = .next (d.raise .formatError .truncated) := by
  rw [Dec.dispatch, if_pos hf, if_neg (by omega)]

/-- All that dispatch can answer as a next state. -/
theorem Dec.dispatch_eq_next {i : Instr} {d t : Dec} {body : Dec → Answer Dec} (h : d.dispatch i body = .next t) :
    d.framing = some i.framing ∧
      (t = d.raise .formatError .truncated ∨
        ((if i.framing = .header then 0 else d.inPos) + i.length ≤ d.input.len ∧ body d = .next t)) := by
  unfold Dec.dispatch at h
  by_cases hf : d.framing = some i.framing
  · rw [if_pos hf] at h
    by_cases hl : (if i.framing = .header then 0 else d.inPos) + i.length ≤ d.input.len
    · rw [if_pos hl] at h
      exact ⟨hf, .inr ⟨hl, h⟩⟩
    · rw [if_neg hl, Host.Outcome.next.injEq] at h
      exact ⟨hf, .inl h.symm⟩
  · rw [if_neg hf] at h
    exact nomatch h

/-! ## The color cache -/

/-- The slot written reads as the pixel written (R194). -/
@[simp] theorem Cache.fetch_store_same (c : Cache) (i : Slot) (p : Pixel) : (c.store i p).fetch i = p := by
  simp [Cache.fetch, Cache.store]

/-- Every other slot keeps its pixel. -/
theorem Cache.fetch_store_other (c : Cache) {i j : Slot} (p : Pixel) (h : j ≠ i) :
    (c.store i p).fetch j = c.fetch j := by
  have : i.val ≠ j.val := fun hv => h (Fin.ext hv.symm)
  simp [Cache.fetch, Cache.store, this]

/-- A slot after a write. -/
theorem Cache.fetch_store (c : Cache) (i j : Slot) (p : Pixel) :
    (c.store i p).fetch j = if j = i then p else c.fetch j := by
  split
  next h => subst h; simp
  next h => exact Cache.fetch_store_other c p h

/-- At stream start every slot holds the zero pixel. -/
@[simp] theorem Cache.fetch_init (i : Slot) : Cache.init.fetch i = Pixel.zero := by
  simp [Cache.fetch, Cache.init]

/-! ## Conditions -/

/-- Equality of pixels is channel-wise (R20, R191). -/
theorem pxEq_iff (p q : Pixel) : pxEq p q = true ↔ p = q := by
  cases p; cases q
  simp [pxEq, and_assoc]

theorem inRange_iff (v lo hi : Int) : inRange v lo hi = true ↔ lo ≤ v ∧ v ≤ hi := by
  simp [inRange]

theorem fitsDiff_iff (dr dg db : Int) :
    fitsDiff dr dg db = true ↔ (-2 ≤ dr ∧ dr ≤ 1) ∧ (-2 ≤ dg ∧ dg ≤ 1) ∧ (-2 ≤ db ∧ db ≤ 1) := by
  simp [fitsDiff, inRange_iff, and_assoc]

theorem fitsLuma_iff (dr dg db : Int) :
    fitsLuma dr dg db = true ↔
      (-32 ≤ dg ∧ dg ≤ 31) ∧ (-8 ≤ dr - dg ∧ dr - dg ≤ 7) ∧ (-8 ≤ db - dg ∧ db - dg ≤ 7) := by
  simp [fitsLuma, inRange_iff, and_assoc]

/-! ## Placing -/

/-- Placing bytes keeps both buffers of the decoder well formed. -/
theorem Dec.place_wf {d : Dec} (hi : d.input.wf = true) (ho : d.out.wf = true) (f : Framing) (bs : List Byte) :
    (d.place f bs).input.wf = true ∧ (d.place f bs).out.wf = true := by
  rw [Buffer.wf_iff] at hi ho ⊢
  rw [Buffer.wf_iff]
  refine ⟨⟨Memory.writeBytes_wf hi.1 _ _, Memory.writeBytes_bound (fun c hc => ?_) (Nat.le_max_right _ _)⟩, ho.1, ?_⟩
  · exact Nat.lt_of_lt_of_le (hi.2 c hc) (Nat.le_max_left _ _)
  · exact fun c hc => Nat.lt_of_lt_of_le (ho.2 c hc) (Nat.le_max_left _ _)

/-- The four buffers at reset are well formed. -/
theorem State.reset_wf :
    State.reset.enc.pix.wf = true ∧ State.reset.enc.out.wf = true ∧ State.reset.dec.input.wf = true ∧
      State.reset.dec.out.wf = true := by decide

/-! ## Launching -/

/-- All that an encoder launch can answer as a next state (R253), under a value of MAX_PIXELS. -/
theorem State.launchEncUnder_eq_next {limit : Option Nat} {w h : Word32} {cs : Byte} {pix : List Byte} {cap : Nat}
    {s t : State} :
    s.launchEncUnder limit w h cs pix cap = .next t ↔
      s.enc.running = false ∧ pix.length = 3 * (w.toNat * h.toNat) ∧
        admitsPixels limit (w.toNat * h.toNat) = true ∧ encCapacity (w.toNat * h.toNat) ≤ cap ∧
        t = { s with enc := Enc.atLaunch w h cs (Buffer.ofBytes pix) cap } := by
  unfold State.launchEncUnder
  by_cases h1 : s.enc.running
  · simp [h1]
  by_cases h2 : pix.length = 3 * (w.toNat * h.toNat)
  case neg => simp [h1, h2]
  by_cases h3 : admitsPixels limit (w.toNat * h.toNat)
  case neg => simp [h1, h2, h3]
  by_cases h4 : cap < encCapacity (w.toNat * h.toNat)
  · simp [h1, h2, h3, h4, Nat.not_le.2 h4]
  · simp [h1, h2, h3, h4, Nat.not_lt.1 h4, eq_comm]

/-- All that an encoder launch can answer as a next state, under the machine's MAX_PIXELS. -/
theorem State.launchEnc_eq_next {w h : Word32} {cs : Byte} {pix : List Byte} {cap : Nat} {s t : State} :
    s.launchEnc w h cs pix cap = .next t ↔
      s.enc.running = false ∧ pix.length = 3 * (w.toNat * h.toNat) ∧
        admitsPixels Config.maxPixels (w.toNat * h.toNat) = true ∧ encCapacity (w.toNat * h.toNat) ≤ cap ∧
        t = { s with enc := Enc.atLaunch w h cs (Buffer.ofBytes pix) cap } :=
  State.launchEncUnder_eq_next

/-- All that a decoder launch can answer as a next state (R253), under a value of MAX_PIXELS. -/
theorem State.launchDecUnder_eq_next {limit : Option Nat} {bs : List Byte} {cap : Nat} {s t : State} :
    s.launchDecUnder limit bs cap = .next t ↔
      s.dec.running = false ∧ admitsPixels limit (announcedPixels bs) = true ∧ decCapacity bs ≤ cap ∧
        t = { s with dec := Dec.atLaunch (Buffer.ofBytes bs) cap } := by
  unfold State.launchDecUnder
  by_cases h1 : s.dec.running
  · simp [h1]
  by_cases h3 : admitsPixels limit (announcedPixels bs)
  case neg => simp [h1, h3]
  by_cases h4 : cap < decCapacity bs
  · simp [h1, h3, h4, Nat.not_le.2 h4]
  · simp [h1, h3, h4, Nat.not_lt.1 h4, eq_comm]

/-- All that a decoder launch can answer as a next state, under the machine's MAX_PIXELS. -/
theorem State.launchDec_eq_next {bs : List Byte} {cap : Nat} {s t : State} :
    s.launchDec bs cap = .next t ↔
      s.dec.running = false ∧ admitsPixels Config.maxPixels (announcedPixels bs) = true ∧ decCapacity bs ≤ cap ∧
        t = { s with dec := Dec.atLaunch (Buffer.ofBytes bs) cap } :=
  State.launchDecUnder_eq_next

/-! ## Taking a result (R256) -/

theorem Enc.result_of_done {e : Enc} (h : e.phase = .done) : e.result = some (e.out.window 0 e.outPos) := if_pos h

theorem Enc.result_of_not_done {e : Enc} (h : e.phase ≠ .done) : e.result = none := if_neg h

theorem Dec.result_of_done {d : Dec} (h : d.phase = .done) :
    d.result =
      some (.ok
        { bytes := d.out.window 0 d.outPos, width := d.width, height := d.height, channels := d.channels,
          colorspace := d.colorspace, consumed := d.inPos }) := by
  rw [Dec.result, h]

theorem Dec.result_of_fault {d : Dec} (h : d.phase = .fault) :
    d.result = some (.error { err := d.err, errSub := d.errSub, errPos := d.errPos }) := by
  rw [Dec.result, h]

theorem Dec.result_of_unfinished {d : Dec} (h : d.phase ≠ .done) (h' : d.phase ≠ .fault) : d.result = none := by
  unfold Dec.result
  split <;> first | rfl | contradiction

end Sys2Proof.Machine
end

