-- ==== Sys2Proof/Laws/PerInstr.lean ====
section
/-! SUPPORT. Per-instruction laws of the syntax: one lemma per constructor of `Instr`. -/

namespace Sys2Proof.Laws.EncodeLength

/-- An instruction's bytes are as many as its length says, and fit the window its framing fetches (R89, R92). -/
def Statement (i : Instr) : Prop := (encode i).length = i.length ∧ i.length ≤ i.framing.window

theorem index (slot : Slot) : Statement (.index slot) := ⟨rfl, by simp [Instr.length, Instr.framing, Framing.window]⟩
theorem diff (dr dg db : Int) : Statement (.diff dr dg db) := ⟨rfl, by simp [Instr.length, Instr.framing, Framing.window]⟩
theorem luma (dg drDg dbDg : Int) : Statement (.luma dg drDg dbDg) := ⟨rfl, by simp [Instr.length, Instr.framing, Framing.window]⟩
theorem run (count : Nat) : Statement (.run count) := ⟨rfl, by simp [Instr.length, Instr.framing, Framing.window]⟩
theorem rgb (r g b : Byte) : Statement (.rgb r g b) := ⟨rfl, by simp [Instr.length, Instr.framing, Framing.window]⟩
theorem rgba : Statement .rgba := ⟨rfl, by simp [Instr.length, Instr.framing, Framing.window]⟩
theorem hdr (width height : Word32) (channels colorspace : Byte) :
    Statement (.hdr width height channels colorspace) := ⟨rfl, by simp [Instr.length, Instr.framing, Framing.window]⟩
theorem endMarker : Statement .endMarker := ⟨rfl, by simp [Instr.length, Instr.framing, Framing.window]⟩

end Sys2Proof.Laws.EncodeLength
end

