-- ==== Sys2Proof/Laws/Encode.lean ====
section
/-! SUPPORT. What a step of the encoder can do, said once, and the laws of its run scan. -/

namespace Sys2Proof.Machine

/-- The bytes of an instruction are as many as its length says. -/
theorem encode_length (i : Instr) : (encode i).length = i.length := by
  cases i <;> rfl

/-! ## The run scan (R134) -/

theorem Enc.le_scan (e : Enc) (more count : Nat) : count ≤ e.scan more count := by
  induction more generalizing count with
  | zero => exact Nat.le_refl _
  | succ more ih =>
    unfold Enc.scan
    split
    · exact Nat.le_trans (Nat.le_succ _) (ih (count + 1))
    · exact Nat.le_refl _

theorem Enc.scan_le (e : Enc) (more count : Nat) : e.scan more count ≤ count + more := by
  induction more generalizing count with
  | zero => exact Nat.le_refl _
  | succ more ih =>
    unfold Enc.scan
    split
    · have := ih (count + 1); omega
    · omega

/-- Every pixel the scan passes exists and equals `prev`. -/
theorem Enc.scan_covers (e : Enc) {more count k : Nat} (hk : count ≤ k) (h : k < e.scan more count) :
    e.pxPos + k < e.n ∧ e.pixel (e.pxPos + k) = e.prev := by
  induction more generalizing count with
  | zero => unfold Enc.scan at h; omega
  | succ more ih =>
    unfold Enc.scan at h
    split at h
    next hc =>
      rw [Bool.and_eq_true, decide_eq_true_eq, pxEq_iff] at hc
      rcases Nat.eq_or_lt_of_le hk with rfl | hlt
      · exact hc
      · exact ih hlt h
    · omega

/-- The scan stops only at its cap, at the end of the image, or at another color. -/
theorem Enc.scan_stops (e : Enc) (more count : Nat) (h : e.scan more count < count + more) :
    ¬ (e.pxPos + e.scan more count < e.n ∧ e.pixel (e.pxPos + e.scan more count) = e.prev) := by
  induction more generalizing count with
  | zero => unfold Enc.scan at h; omega
  | succ more ih =>
    unfold Enc.scan at h ⊢
    split
    next hc =>
      rw [if_pos hc] at h
      exact ih (count + 1) (by omega)
    next hc =>
      rwa [Bool.and_eq_true, decide_eq_true_eq, pxEq_iff] at hc

/-- The count of a RUN is 1..62. -/
theorem Enc.runCount_bounds (e : Enc) : 1 ≤ e.runCount ∧ e.runCount ≤ 62 :=
  ⟨e.le_scan 61 1, e.scan_le 61 1⟩

/-! ## The moves of the encoder -/

/-- The moves of an encoder that takes a step. -/
inductive Enc.Moves (e : Enc) : Enc → Prop where
  /-- The header is emitted (R110). -/
  | header (phase : e.phase = .header) (room : e.outPos + 14 ≤ e.out.len) :
      Enc.Moves e
        { e with
          phase := .pixels, out := e.out.store e.outPos (encode (.hdr e.width e.height 3 e.colorspace)),
          outPos := e.outPos + 14 }
  /-- One chunk is emitted for the `n` pixels at the cursor, which are all of one color (R146). -/
  | chunk (i : Instr) (c : Cache) (n : Nat) (phase : e.phase = .pixels) (kind : i.framing = .chunk)
      (executable : i ≠ .rgba) (wf : i.wellFormed = true) (present : 3 * e.n ≤ e.pix.len) (number : 1 ≤ n ∧ n ≤ 62)
      (count : e.pxPos + n ≤ e.n) (color : ∀ k, k < n → e.pixel (e.pxPos + k) = e.cur)
      (cache : c = e.cache ∨ c = e.cache.store (pxHash e.cur) e.cur)
      (room : e.outPos + i.length ≤ e.out.len) :
      Enc.Moves e
        { e with
          prev := e.cur, cache := c, pxPos := e.pxPos + n, out := e.out.store e.outPos (encode i),
          outPos := e.outPos + i.length }
  /-- The end marker is emitted (R142). -/
  | marker (phase : e.phase = .endMarker ∨ (e.phase = .pixels ∧ ¬ e.pxPos < e.n)) (room : e.outPos + 8 ≤ e.out.len) :
      Enc.Moves e
        { e with phase := .done, out := e.out.store e.outPos (encode .endMarker), outPos := e.outPos + 8 }

/-- The pixel at the cursor is the whole of a one-pixel chunk. -/
theorem Enc.color_one (e : Enc) (k : Nat) (h : k < 1) : e.pixel (e.pxPos + k) = e.cur := by
  obtain rfl : k = 0 := by omega
  rfl

/-- A chunk step's next state is a chunk move. -/
theorem Enc.chunkStep_moves {wrap : Bool} {e t : Enc} (phase : e.phase = .pixels) (hlt : e.pxPos < e.n)
    (h : e.chunkStep wrap = .next t) : e.Moves t := by
  unfold Enc.chunkStep at h
  split at h
  · exact nomatch h
  next hp =>
  split at h
  next hr =>
    rw [pxEq_iff] at hr
    obtain ⟨room, rfl⟩ := Enc.emit_eq_next.1 h
    have hb := e.runCount_bounds
    have hc : ∀ k, k < e.runCount → e.pixel (e.pxPos + k) = e.cur := fun k hk => by
      rcases Nat.eq_zero_or_pos k with rfl | hpos
      · rfl
      · rw [(e.scan_covers hpos hk).2, hr]
    have hle : e.pxPos + e.runCount ≤ e.n := by
      rcases Nat.lt_or_ge 1 e.runCount with h1 | h1
      · have := (e.scan_covers (more := 61) (count := 1) (k := e.runCount - 1) (by omega)
          (by show _ < e.runCount; omega)).1
        omega
      · omega
    have := Enc.Moves.chunk (e := e) (.run e.runCount) e.cache e.runCount phase rfl (by simp)
      (by rw [Instr.wellFormed, Bool.and_eq_true, decide_eq_true_eq, decide_eq_true_eq]; exact hb) (by omega) hb hle hc (.inl rfl) room
    rw [hr] at this
    exact this
  next hr =>
  split at h
  · obtain ⟨room, rfl⟩ := Enc.emit_eq_next.1 h
    exact .chunk (.index (pxHash e.cur)) e.cache 1 phase rfl (by simp) rfl (by omega) (by decide) hlt e.color_one
      (.inl rfl) room
  · unfold Enc.emitByDelta at h
    split at h
    next hd =>
      obtain ⟨room, rfl⟩ := Enc.emit_eq_next.1 h
      exact .chunk (.diff _ _ _) (e.cache.store (pxHash e.cur) e.cur) 1 phase rfl (by simp) hd (by omega) (by decide) hlt
        e.color_one (.inr rfl) room
    · split at h
      next hl =>
        obtain ⟨room, rfl⟩ := Enc.emit_eq_next.1 h
        exact .chunk (.luma _ _ _) (e.cache.store (pxHash e.cur) e.cur) 1 phase rfl (by simp) hl (by omega) (by decide)
          hlt e.color_one (.inr rfl) room
      · obtain ⟨room, rfl⟩ := Enc.emit_eq_next.1 h
        exact .chunk (.rgb _ _ _) (e.cache.store (pxHash e.cur) e.cur) 1 phase rfl (by simp) rfl (by omega) (by decide)
          hlt e.color_one (.inr rfl) room

/-- Every next state of an encoder step is a move. -/
theorem Enc.step_moves {wrap : Bool} {e t : Enc} (h : e.step wrap = .next t) : e.Moves t := by
  unfold Enc.step at h
  split at h
  · exact nomatch h
  next hp =>
    obtain ⟨room, rfl⟩ := Enc.emit_eq_next.1 h
    exact .header hp room
  next hp =>
    split at h
    next hlt => exact Enc.chunkStep_moves hp hlt h
    next hlt =>
      obtain ⟨room, rfl⟩ := Enc.emit_eq_next.1 h
      exact .marker (.inr ⟨hp, hlt⟩) room
  next hp =>
    obtain ⟨room, rfl⟩ := Enc.emit_eq_next.1 h
    exact .marker (.inl hp) room
  · exact nomatch h

/-- Every next state of an encoder step of the machine: a move, then the loop test. -/
theorem stepEnc_moves {s t : State} (h : stepEnc s = .next t) :
    ∃ e, s.enc.Moves e ∧ t = ({ s with enc := e } : State).endEnc := by
  obtain ⟨u, hu, ht⟩ := andThen_eq_next.1 h
  obtain ⟨e, he, rfl⟩ := State.onEnc_eq_next.1 hu
  rw [Host.Outcome.next.injEq] at ht
  exact ⟨e, Enc.step_moves he, ht.symm⟩

end Sys2Proof.Machine
end

