-- ==== Sys2Proof/Laws/Exec.lean ====
section
/-! SUPPORT. What executing an instruction can do, said once: every next state of `exec` is one of four moves of the
decoder. Invariants and frames are derived from this. -/

namespace Sys2Proof.Machine

/-- An error of R212 with its sub-cause. -/
def ErrKind.allows (k : ErrKind) (u : ErrSub) : Prop :=
  (k = .formatError ∧ u ≠ .none) ∨ (k = .unsupportedChunkError ∧ u = .none)

/-- The pixels chunk `i` can make: carried alpha, or a pixel of the cache. -/
def Dec.makes (d : Dec) (cur : Pixel) : Prop := cur.a = d.prev.a ∨ ∃ j, cur = d.cache.fetch j

/-- The moves of a decoder that executes `i`. -/
inductive Dec.Moves (i : Instr) (d : Dec) : Dec → Prop where
  /-- An error is raised (R220). -/
  | raised (k : ErrKind) (u : ErrSub) (allowed : k.allows u) : Dec.Moves i d (d.raise k u)
  /-- A chunk makes `n` pixels of one color (R175). -/
  | chunk (cur : Pixel) (c : Cache) (n : Nat) (framing : d.framing = some .chunk) (kind : i.framing = .chunk)
      (count : d.pxCount + n ≤ d.n) (present : d.inPos + i.length ≤ d.input.len)
      (room : d.outPos + 3 * n ≤ d.out.len) (cache : c = d.cache ∨ c = d.cache.store (pxHash cur) cur)
      (made : d.makes cur) (emits : 3 * n = emittedBytes i) (number : i.wellFormed = true → 1 ≤ n ∧ n ≤ 62) :
      Dec.Moves i d
        { d with
          prev := cur, cache := c, pxCount := d.pxCount + n, inPos := d.inPos + i.length,
          out := d.out.store d.outPos (cur.repeated n), outPos := d.outPos + 3 * n }
  /-- The header is taken (R113, R116). -/
  | header (w h : Word32) (ch cs : Byte) (instr : i = .hdr w h ch cs) (phase : d.phase = .header)
      (present : 14 ≤ d.input.len) (room : d.outPos + (rasterHeader w h).length ≤ d.out.len) :
      Dec.Moves i d
        { d with
          width := w, height := h, channels := ch, colorspace := cs, inPos := 14, phase := .chunks,
          out := d.out.store d.outPos (rasterHeader w h), outPos := d.outPos + (rasterHeader w h).length }
  /-- The end marker is taken (R172). -/
  | marker (instr : i = .endMarker) (framing : d.framing = some .endMarker) (present : d.inPos + 8 ≤ d.input.len) :
      Dec.Moves i d { d with inPos := d.inPos + 8, phase := .done }

/-- A chunk's production is a chunk move. -/
theorem Dec.produce_moves {i : Instr} {d t : Dec} {cur : Pixel} {c : Cache} {n : Nat}
    (h : Dec.produce cur n i.length { d with cache := c } = .next t) (framing : d.framing = some .chunk)
    (kind : i.framing = .chunk) (count : d.pxCount + n ≤ d.n) (present : d.inPos + i.length ≤ d.input.len)
    (cache : c = d.cache ∨ c = d.cache.store (pxHash cur) cur) (made : d.makes cur)
    (emits : 3 * n = emittedBytes i) (number : i.wellFormed = true → 1 ≤ n ∧ n ≤ 62) : d.Moves i t := by
  rw [Dec.produce, Dec.emit_eq_next] at h
  obtain ⟨room, rfl⟩ := h
  rw [Pixel.repeated_length] at room
  simp only [Pixel.repeated_length]
  exact .chunk cur c n framing kind count present room cache made emits number

theorem Dec.count_one {d : Dec} (h : d.framing = some .chunk) : d.pxCount + 1 ≤ d.n :=
  (Dec.framing_eq_chunk.1 h).2

/-- What each instruction does once it is dispatched and its bytes are present. -/
def Dec.body : Instr → Dec → Answer Dec
  | .index slot, d => d.produce (d.cache.fetch slot) 1 1
  | .diff dr dg db, d => (d.insert (d.prev.moved dr dg db)).produce (d.prev.moved dr dg db) 1 1
  | .luma dg drDg dbDg, d =>
    (d.insert (d.prev.moved (dg + drDg) dg (dg + dbDg))).produce (d.prev.moved (dg + drDg) dg (dg + dbDg)) 1 2
  | .run count, d =>
    if d.n - d.pxCount < count then .next (d.raise .formatError .runOverrun) else d.produce d.prev count 1
  | .rgb r g b, d =>
    (d.insert { r := r, g := g, b := b, a := d.prev.a }).produce { r := r, g := g, b := b, a := d.prev.a } 1 4
  | .rgba, d => .next (d.raise .unsupportedChunkError .none)
  | .hdr w h ch cs, d =>
    Dec.emit (rasterHeader w h)
      { d with width := w, height := h, channels := ch, colorspace := cs, inPos := 14, phase := .chunks }
  | .endMarker, d => .next { d with inPos := d.inPos + 8, phase := .done }

/-- Every instruction is its body behind one dispatch. -/
theorem exec_eq_dispatch (i : Instr) (s : State) : exec i s = s.onDec fun d => d.dispatch i (Dec.body i) := by
  cases i <;> rfl

/-- A dispatched body's next state is a move. -/
theorem Dec.body_moves {i : Instr} {d t : Dec} (hf : d.framing = some i.framing)
    (hl : (if i.framing = .header then 0 else d.inPos) + i.length ≤ d.input.len) (hb : Dec.body i d = .next t) :
    d.Moves i t := by
  cases i with
  | index slot =>
    exact Dec.produce_moves (c := d.cache) hb hf rfl (Dec.count_one hf) hl (.inl rfl) (.inr ⟨slot, rfl⟩) rfl
      (fun _ => by decide)
  | diff dr dg db =>
    exact Dec.produce_moves hb hf rfl (Dec.count_one hf) hl (.inr rfl) (.inl rfl) rfl (fun _ => by decide)
  | luma dg drDg dbDg =>
    exact Dec.produce_moves hb hf rfl (Dec.count_one hf) hl (.inr rfl) (.inl rfl) rfl (fun _ => by decide)
  | run count =>
    have hlt := (Dec.framing_eq_chunk.1 hf).2
    rw [Dec.body] at hb
    split at hb
    · rw [Host.Outcome.next.injEq] at hb
      exact hb ▸ .raised _ _ (by simp [ErrKind.allows])
    · exact Dec.produce_moves (c := d.cache) hb hf rfl (by omega) hl (.inl rfl) (.inl rfl) rfl
        (fun hw => by
          simp only [Instr.wellFormed, Bool.and_eq_true, decide_eq_true_eq] at hw
          exact hw)
  | rgb r g b =>
    exact Dec.produce_moves hb hf rfl (Dec.count_one hf) hl (.inr rfl) (.inl rfl) rfl (fun _ => by decide)
  | rgba =>
    rw [Dec.body, Host.Outcome.next.injEq] at hb
    exact hb ▸ .raised _ _ (by simp [ErrKind.allows])
  | hdr w h ch cs =>
    obtain ⟨room, rfl⟩ := Dec.emit_eq_next.1 hb
    exact .header w h ch cs rfl (Dec.framing_eq_header.1 hf) (by simpa [Instr.framing, Instr.length] using hl) room
  | endMarker =>
    rw [Dec.body, Host.Outcome.next.injEq] at hb
    exact hb ▸ .marker rfl hf hl

/-- Every next state of `exec` is a move of the decoder; the encoder and the step count stay. -/
theorem exec_moves {i : Instr} {s t : State} (h : exec i s = .next t) :
    ∃ d, t = { s with dec := d } ∧ s.dec.Moves i d := by
  rw [exec_eq_dispatch] at h
  obtain ⟨d, hd, rfl⟩ := State.onDec_eq_next.1 h
  refine ⟨d, rfl, ?_⟩
  obtain ⟨hf, rfl | ⟨hl, hb⟩⟩ := Dec.dispatch_eq_next hd
  · exact .raised _ _ (by simp [ErrKind.allows])
  · exact Dec.body_moves hf hl hb

/-! ## The step -/

/-- Every next state of a decoder step: an error of the fetch, or a move, then the loop test. -/
theorem stepDec_moves {s t : State} (h : stepDec s = .next t) :
    ∃ f, s.dec.framing = some f ∧
      ((∃ x, s.dec.fetch f = .error x ∧ t = (s.raiseDecode x).endDec) ∨
        (∃ i d, s.dec.fetch f = .ok i ∧ s.dec.Moves i d ∧
          t = ({ s with dec := d } : State).endDec)) := by
  unfold stepDec at h
  split at h
  · exact nomatch h
  next f hf =>
    refine ⟨f, hf, ?_⟩
    split at h
    next i hi =>
      obtain ⟨u, hu, ht⟩ := andThen_eq_next.1 h
      obtain ⟨d, rfl, hd⟩ := exec_moves hu
      rw [Host.Outcome.next.injEq] at ht
      exact .inr ⟨i, d, hi, hd, ht.symm⟩
    next x hx =>
      rw [Host.Outcome.next.injEq] at h
      exact .inl ⟨x, hx, h.symm⟩

/-- The agent that moves is running. -/
theorem State.mover_running {s : State} :
    (s.mover = some .enc → s.enc.running = true) ∧ (s.mover = some .dec → s.dec.running = true) ∧
      (s.mover = none ↔ s.enc.running = false ∧ s.dec.running = false) := by
  unfold State.mover
  cases s.enc.running <;> cases s.dec.running <;> simp

/-- With the encoder at rest a running decoder moves. -/
theorem State.mover_dec {s : State} (he : s.enc.running = false) (hd : s.dec.running = true) :
    s.mover = some .dec := by
  simp [State.mover, he, hd]

/-- With the decoder at rest a running encoder moves. -/
theorem State.mover_enc {s : State} (he : s.enc.running = true) (hd : s.dec.running = false) :
    s.mover = some .enc := by
  simp [State.mover, he, hd]

/-- A step of the machine is a step of the agent that moves. -/
theorem step_eq_next {s t : State} (h : step s = .next t) :
    (s.mover = some .enc ∧ stepEnc s = .next t) ∨ (s.mover = some .dec ∧ stepDec s = .next t) := by
  unfold step at h
  split at h
  · exact nomatch h
  next hm => exact .inl ⟨hm, h⟩
  next hm => exact .inr ⟨hm, h⟩

end Sys2Proof.Machine
end

