-- ==== Sys2Proof/Laws/Codec.lean ====
section
/-! SUPPORT. What joins the two agents: the decoder's addition undoes the encoder's difference, and each chunk the
encoder emits is, for a decoder that agrees with it, the production of the pixels the encoder consumed. -/

namespace Sys2Proof.Machine

/-! ## Windows of a buffer -/

theorem Buffer.window_cons {b : Buffer} {a : Nat} (n : Nat) (h : a < b.len) :
    b.window a (n + 1) = Memory.read b.mem a :: b.window (a + 1) n := by
  rw [Buffer.window, if_pos h]

theorem Buffer.window_past {b : Buffer} {a : Nat} (n : Nat) (h : b.len ≤ a) : b.window a n = [] := by
  cases n with
  | zero => rfl
  | succ n => rw [Buffer.window, if_neg (by omega)]

/-- A shorter window is the beginning of a longer one. -/
theorem Buffer.window_take (b : Buffer) (a : Nat) {m n : Nat} (h : n ≤ m) :
    b.window a n = (b.window a m).take n := by
  apply List.ext_getElem
  · simp only [List.length_take, Buffer.window_length]; omega
  · intro k h1 h2
    rw [Buffer.window_getElem, List.getElem_take, Buffer.window_getElem]

/-- Width and height stand in the first 14 bytes. -/
theorem headerSize_take (l : List Byte) : headerSize (l.take 14) = headerSize l := by
  unfold headerSize
  rcases l with _ | ⟨_, _ | ⟨_, _ | ⟨_, _ | ⟨_, _ | ⟨_, _ | ⟨_, _ | ⟨_, l⟩⟩⟩⟩⟩⟩⟩
  iterate 7 rfl
  rcases l with _ | ⟨_, _ | ⟨_, _ | ⟨_, _ | ⟨_, _ | ⟨_, _ | ⟨_, _ | ⟨_, l⟩⟩⟩⟩⟩⟩⟩ <;> rfl

/-- A header that decodes has the size the launch reads from it (R253). -/
theorem headerSize_of_decode {l rest : List Byte} {w h : Word32} {ch cs : Byte}
    (hd : decodeHeader l = .ok (.hdr w h ch cs, rest)) : headerSize l = some (w, h) := by
  unfold decodeHeader at hd
  split at hd
  · split at hd
    · cases hd; rfl
    · exact nomatch hd
  · exact nomatch hd

/-! ## Instructions -/

theorem Instr.length_pos (i : Instr) : 1 ≤ i.length := by
  cases i <;> simp [Instr.length]

theorem Instr.length_le_window (i : Instr) : i.length ≤ i.framing.window := by
  cases i <;> simp [Instr.length, Instr.framing, Framing.window]

/-! ## Pixels -/

/-- The bytes of the `k`-th of `n` equal pixels. -/
theorem Pixel.repeated_getElem? (p : Pixel) {n k : Nat} (h : k < n) :
    (p.repeated n)[3 * k]? = some p.r ∧ (p.repeated n)[3 * k + 1]? = some p.g ∧
      (p.repeated n)[3 * k + 2]? = some p.b := by
  induction n generalizing k with
  | zero => omega
  | succ n ih =>
    cases k with
    | zero => exact ⟨rfl, rfl, rfl⟩
    | succ k =>
      have e : 3 * (k + 1) = 3 * k + 1 + 1 + 1 := by omega
      simpa [Pixel.repeated, Pixel.rgb, e] using ih (k := k) (by omega)

/-- The bytes of `n` pixels of one color are the raster's at the cursor, when all of those have that color. -/
theorem Enc.repeated_reads {e : Enc} {n k : Nat} (h : ∀ j, j < n → e.pixel (e.pxPos + j) = e.cur) (hk : k < 3 * n) :
    (e.cur.repeated n)[k]? = some (Memory.read e.pix.mem (3 * e.pxPos + k)) := by
  obtain ⟨q, r, hr, rfl⟩ : ∃ q r, r < 3 ∧ k = 3 * q + r := ⟨k / 3, k % 3, by omega, by omega⟩
  obtain ⟨h0, h1, h2⟩ := e.cur.repeated_getElem? (n := n) (k := q) (by omega)
  have hc := h q (by omega)
  obtain rfl | rfl | rfl : r = 0 ∨ r = 1 ∨ r = 2 := by omega
  · rw [Nat.add_zero, h0, ← hc]; simp only [Enc.pixel, Nat.mul_add]
  · rw [h1, ← hc]; simp only [Enc.pixel, Nat.mul_add, Nat.add_assoc]
  · rw [h2, ← hc]; simp only [Enc.pixel, Nat.mul_add, Nat.add_assoc]

/-- Under either DELTA_WRAP the decoder's addition of the encoder's difference gives the channel back (R197, R199). -/
theorem addChannel_delta (wrap : Bool) (x y : Byte) : addChannel y (delta wrap x y) = x := by
  have hx := x.isLt
  have hy := y.isLt
  apply BitVec.eq_of_toNat_eq
  have key : ∀ d : Int, (d - ((x.toNat : Int) - y.toNat)) % 256 = 0 → (addChannel y d).toNat = x.toNat := by
    intro d hd
    simp only [addChannel, wrap8, BitVec.toNat_ofInt, Int.ofNat_eq_natCast]
    omega
  cases wrap with
  | false => exact key _ (by simp [delta])
  | true =>
    apply key
    simp only [delta, sext8, wrap8, if_true, BitVec.toInt_ofInt, Int.ofNat_eq_natCast, Int.bmod]
    split <;> omega

/-- A pixel of alpha 255 is its predecessor of alpha 255 moved by the three differences. -/
theorem Pixel.moved_delta (wrap : Bool) (e : Enc) (ha : e.prev.a = 255) :
    e.prev.moved (delta wrap e.cur.r e.prev.r) (delta wrap e.cur.g e.prev.g) (delta wrap e.cur.b e.prev.b) = e.cur := by
  rw [Pixel.moved, addChannel_delta, addChannel_delta, addChannel_delta, ha]
  rfl

/-! ## One chunk -/

/-- The chunk an encoder step emits, and what it is for a decoder that agrees on `prev`, cache, count and N: the
production of the same pixels with the same cache (R178). -/
theorem Enc.step_pairs {wrap : Bool} {e t : Enc} (phase : e.phase = .pixels) (hlt : e.pxPos < e.n)
    (ha : e.prev.a = 255) (h : e.step wrap = .next t) :
    ∃ (i : Instr) (c : Cache) (n : Nat),
      i.framing = .chunk ∧ i.wellFormed = true ∧ (1 ≤ n ∧ n ≤ 62) ∧ e.pxPos + n ≤ e.n ∧
      (∀ k, k < n → e.pixel (e.pxPos + k) = e.cur) ∧
      t = { e with
            prev := e.cur, cache := c, pxPos := e.pxPos + n, out := e.out.store e.outPos (encode i),
            outPos := e.outPos + i.length } ∧
      ∀ d : Dec, d.prev = e.prev → d.cache = e.cache → d.pxCount = e.pxPos → d.n = e.n →
        Dec.body i d = Dec.produce e.cur n i.length { d with cache := c } := by
  simp only [Enc.step, phase, if_pos hlt] at h
  unfold Enc.chunkStep at h
  split at h
  · exact nomatch h
  split at h
  next hr =>
    rw [pxEq_iff] at hr
    obtain ⟨-, rfl⟩ := Enc.emit_eq_next.1 h
    have hb := e.runCount_bounds
    have hc : ∀ k, k < e.runCount → e.pixel (e.pxPos + k) = e.cur := fun k hk => by
      rcases Nat.eq_zero_or_pos k with rfl | hpos
      · rfl
      · rw [(e.scan_covers hpos hk).2, hr]
    have hle : e.pxPos + e.runCount ≤ e.n := by
      rcases Nat.lt_or_ge 1 e.runCount with h1 | h1
      · have := (e.scan_covers (more := 61) (count := 1) (k := e.runCount - 1) (by omega)
          (by show _ < e.runCount; omega)).1
        omega
      · omega
    refine ⟨.run e.runCount, e.cache, e.runCount, rfl, ?_, hb, hle, hc, by rw [hr]; rfl, ?_⟩
    · rw [Instr.wellFormed, Bool.and_eq_true, decide_eq_true_eq, decide_eq_true_eq]; exact hb
    · intro d h1 h2 h3 h4
      rw [Dec.body, if_neg (by omega), h1, hr, ← h2]; rfl
  next =>
  split at h
  next hx =>
    rw [pxEq_iff] at hx
    obtain ⟨-, rfl⟩ := Enc.emit_eq_next.1 h
    refine ⟨.index (pxHash e.cur), e.cache, 1, rfl, rfl, by decide, hlt, e.color_one, rfl, ?_⟩
    intro d h1 h2 h3 h4
    rw [Dec.body, h2, hx, ← h2]; rfl
  · have moved := Pixel.moved_delta wrap e ha
    unfold Enc.emitByDelta at h
    split at h
    next hd =>
      obtain ⟨-, rfl⟩ := Enc.emit_eq_next.1 h
      refine ⟨.diff _ _ _, e.cache.store (pxHash e.cur) e.cur, 1, rfl, hd, by decide, hlt, e.color_one, rfl, ?_⟩
      intro d h1 h2 h3 h4
      rw [Dec.body, h1, moved, Dec.insert, h2]; rfl
    · split at h
      next hl =>
        obtain ⟨-, rfl⟩ := Enc.emit_eq_next.1 h
        refine ⟨.luma _ _ _, e.cache.store (pxHash e.cur) e.cur, 1, rfl, hl, by decide, hlt, e.color_one, rfl, ?_⟩
        intro d h1 h2 h3 h4
        rw [Dec.body, Int.add_comm, Int.sub_add_cancel, Int.add_comm _ (delta wrap e.cur.b e.prev.b - _),
          Int.sub_add_cancel, h1, moved, Dec.insert, h2]
        rfl
      · obtain ⟨-, rfl⟩ := Enc.emit_eq_next.1 h
        refine ⟨.rgb _ _ _, e.cache.store (pxHash e.cur) e.cur, 1, rfl, rfl, by decide, hlt, e.color_one, rfl, ?_⟩
        intro d h1 h2 h3 h4
        have hc : ({ r := e.cur.r, g := e.cur.g, b := e.cur.b, a := d.prev.a } : Pixel) = e.cur := by rw [h1, ha]; rfl
        rw [Dec.body, hc, Dec.insert, h2]; rfl

end Sys2Proof.Machine
end

