-- ==== Sys2Proof/Tests/Slice0.lean ====
section
/-! SUPPORT. Tests of the model: ill-formed terms refused, words written out from the spec's encodings, one step per
instruction with the results the spec gives (42 and 41, the examples of each rule; 95_test_vectors), and for every
obligation with hypotheses a named witness that meets them. -/

namespace Sys2Proof.Tests

open Sys2Proof Sys2Proof.Machine

/-! ## Helpers -/

/-- The answer is a next state of which this holds. -/
def after {σ : Type} (x : Answer σ) (p : σ → Bool) : Bool :=
  match x with
  | .next s => p s
  | .fault _ => false
  | .refused _ => false

/-- The answer is a next state. -/
def answers {σ : Type} (x : Answer σ) : Bool := after x fun _ => true

/-- The answer is this refusal. -/
def refusedWith {σ : Type} (x : Answer σ) (r : Refusal) : Bool :=
  match x with
  | .next _ => false
  | .fault _ => false
  | .refused q => decide (q = r)

theorem exists_of_answers {σ : Type} {x : Answer σ} (h : answers x = true) : ∃ t, x = .next t := by
  cases x with
  | next s => exact ⟨s, rfl⟩
  | fault r => exact nomatch h
  | refused r => exact nomatch h

/-- The bytes of an instruction and a list decode to it and nothing else. -/
def reads (f : Framing) (bs : List Byte) (i : Instr) : Bool :=
  match decode f bs with
  | .ok (j, rest) => decide (j = i) && decide (rest = [])
  | .error _ => false

/-- The bytes are no instruction, for this reason. -/
def rejects (f : Framing) (bs : List Byte) (e : DecodeError) : Bool :=
  match decode f bs with
  | .ok _ => false
  | .error x => decide (x = e)

/-- A decoder in CHUNKS with this `prev`, `n` pixels owed, these bytes at the cursor and an empty OUT of 186 bytes. -/
def decAt (prev : Pixel) (n : Word32) (bytes : List Byte) : Dec :=
  { Dec.atLaunch (Buffer.ofBytes bytes) 186 with prev := prev, width := n, height := 1, phase := .chunks }

/-- The machine with that decoder and an idle encoder. -/
def chunkAt (prev : Pixel) (n : Word32) (bytes : List Byte) : State := { State.idle with dec := decAt prev n bytes }

/-- An encoder in PIXELS with this `prev`, an image of one row of these bytes, and an empty OUT of 200 bytes. -/
def encAt (prev : Pixel) (bytes : List Byte) : Enc :=
  { Enc.atLaunch (BitVec.ofNat 32 (bytes.length / 3)) 1 0 (Buffer.ofBytes bytes) 200 with prev := prev, phase := .pixels }

/-- What the encoder has put out, and whether it left this `prev`. -/
def put (x : Answer Enc) (bytes : List Byte) (prev : Pixel) : Bool :=
  after x fun e => decide (e.out.window 0 e.outPos = bytes) && decide (e.prev = prev)

/-- What the decoder has put out, `prev`, and the cursor. -/
def made (x : Answer State) (bytes : List Byte) (prev : Pixel) (inPos : Nat) : Bool :=
  after x fun s => decide (s.dec.out.window 0 s.dec.outPos = bytes) && decide (s.dec.prev = prev) &&
    decide (s.dec.inPos = inPos)

/-- The decoder is faulted with this error, its `prev`, cursor and output untouched. -/
def faulted (x : Answer State) (d : Dec) (k : ErrKind) (u : ErrSub) : Bool :=
  after x fun s => decide (s.dec = { d with err := k, errSub := u, errPos := d.inPos, phase := .fault })

/-- A gray pixel of alpha 255. -/
def gray (v : Byte) : Pixel := { r := v, g := v, b := v, a := 255 }

/-- A decoder launched on a stream of a header's length. -/
def headerState : State :=
  { State.idle with
    dec := Dec.atLaunch (Buffer.ofBytes [0x71, 0x6F, 0x69, 0x66, 0, 0, 0, 2, 0, 0, 0, 1, 3, 0]) 29 }

/-! ## WellFormed: an ill-formed term for each check -/

theorem test_wellFormed_diff :
    (Instr.diff (-3) 0 0).wellFormed = false ∧ (Instr.diff 2 0 0).wellFormed = false ∧
    (Instr.diff 0 (-3) 0).wellFormed = false ∧ (Instr.diff 0 2 0).wellFormed = false ∧
    (Instr.diff 0 0 (-3)).wellFormed = false ∧ (Instr.diff 0 0 2).wellFormed = false := by decide

theorem test_wellFormed_luma :
    (Instr.luma (-33) 0 0).wellFormed = false ∧ (Instr.luma 32 0 0).wellFormed = false ∧
    (Instr.luma 0 (-9) 0).wellFormed = false ∧ (Instr.luma 0 8 0).wellFormed = false ∧
    (Instr.luma 0 0 (-9)).wellFormed = false ∧ (Instr.luma 0 0 8).wellFormed = false := by decide

theorem test_wellFormed_run : (Instr.run 0).wellFormed = false ∧ (Instr.run 63).wellFormed = false := by decide

/-! ## Decoding: words written out bit by bit from R81 to R88 -/

/-- INDEX, `00iiiiii`: 00.000000, 00.010101, 00.111111. -/
theorem test_decode_index :
    reads .chunk [0b00000000] (.index 0) ∧ reads .chunk [0b00010101] (.index 21) ∧
    reads .chunk [0b00111111] (.index 63) := by decide

/-- DIFF, `01rrggbb` biased by 2: the extremes, and 1,1,-2 of R137. -/
theorem test_decode_diff :
    reads .chunk [0b01000000] (.diff (-2) (-2) (-2)) ∧ reads .chunk [0b01111111] (.diff 1 1 1) ∧
    reads .chunk [0b01111100] (.diff 1 1 (-2)) ∧ reads .chunk [0b01000111] (.diff (-2) (-1) 1) := by decide

/-- LUMA, `10gggggg rrrrbbbb` biased by 32, 8, 8: the extremes, and 2,0,-4 of R138. -/
theorem test_decode_luma :
    reads .chunk [0b10000000, 0b00000000] (.luma (-32) (-8) (-8)) ∧
    reads .chunk [0b10111111, 0b11111111] (.luma 31 7 7) ∧
    reads .chunk [0b10100010, 0b10000100] (.luma 2 0 (-4)) ∧ reads .chunk [0b10100000, 0b11110000] (.luma 0 7 (-8)) ∧
    rejects .chunk [0b10100010] .truncated := by decide

/-- RUN, `11nnnnnn`, count - 1: 1, 2 and 62; the two bytes past it are RGB and RGBA. -/
theorem test_decode_run :
    reads .chunk [0b11000000] (.run 1) ∧ reads .chunk [0b11000001] (.run 2) ∧
    reads .chunk [0b11111101] (.run 62) := by decide

theorem test_decode_rgb :
    reads .chunk [0b11111110, 0x80, 0x40, 0x20] (.rgb 128 64 32) ∧
    rejects .chunk [0b11111110, 0x80, 0x40] .truncated := by decide

theorem test_decode_rgba : reads .chunk [0b11111111] .rgba ∧ rejects .chunk [] .truncated := by decide

/-- HDR: V-H2 and V-H3; V-H6, V-H8 and V-H9 are refused by name. -/
theorem test_decode_hdr :
    reads .header [0x71, 0x6F, 0x69, 0x66, 0x00, 0x00, 0x02, 0x80, 0x00, 0x00, 0x01, 0xE0, 0x03, 0x00]
      (.hdr 640 480 3 0) ∧
    reads .header [0x71, 0x6F, 0x69, 0x66, 0xFF, 0xFF, 0xFF, 0xFF, 0x00, 0x00, 0x01, 0x02, 0x03, 0x01]
      (.hdr 4294967295 258 3 1) ∧
    rejects .header [0x71, 0x6F, 0x69, 0x66, 0x00, 0x00] .truncated ∧
    rejects .header [0x71, 0x6F, 0x69, 0x67, 0, 0, 0, 1, 0, 0, 0, 1, 3, 0] .badMagic ∧
    rejects .header [0x51, 0x4F, 0x49, 0x46, 0, 0, 0, 1, 0, 0, 0, 1, 3, 0] .badMagic := by decide

/-- END: the marker; two of the corruptions of T5 and R172; seven bytes of it. -/
theorem test_decode_end :
    reads .endMarker [0, 0, 0, 0, 0, 0, 0, 1] .endMarker ∧
    rejects .endMarker [0, 0, 0, 0, 0, 0, 0, 0] .badEndMarker ∧
    rejects .endMarker [0, 0, 0, 0, 0, 0, 1, 1] .badEndMarker ∧
    rejects .endMarker [0, 0, 0, 0, 0, 0, 0] .truncated := by decide

/-- Every row of the opcode table by its own numbering of bits. -/
theorem test_decodeTableWord :
    decodeTableWord 8 0x15 = some (.index 21) ∧ decodeTableWord 8 0x7C = some (.diff 1 1 (-2)) ∧
    decodeTableWord 16 0x84A2 = some (.luma 2 0 (-4)) ∧ decodeTableWord 8 0xC1 = some (.run 2) ∧
    decodeTableWord 32 0x204080FE = some (.rgb 128 64 32) ∧ decodeTableWord 8 0xFF = some .rgba ∧
    decodeTableWord 32 0x716F6966 = some (.hdr 0 0 0 0) ∧
    decodeTableWord 64 0x0000000000000001 = some .endMarker := by decide

/-! ## Arithmetic -/

/-- The table of R204. -/
theorem test_hash :
    [(0, 0, 0, 0), (0, 0, 0, 255), (10, 10, 10, 255), (255, 255, 255, 255), (1, 2, 3, 255), (100, 50, 20, 255),
      (100, 50, 84, 255), (255, 0, 0, 255), (0, 255, 0, 255), (0, 0, 255, 255), (128, 128, 128, 255),
      (128, 64, 32, 255), (1, 1, 1, 0), (1, 1, 1, 255), (0, 0, 0, 1)].map
        (fun (r, g, b, a) => (pxHash { r := r, g := g, b := b, a := a }).val) =
      [0, 53, 11, 38, 23, 39, 39, 50, 48, 46, 53, 21, 15, 4, 11] := by decide

/-- V-C3: the two equalities differ on the zero pixel and black. -/
theorem test_equalities :
    pxEq Pixel.zero Pixel.prevInit = false ∧ rgbEq Pixel.zero Pixel.prevInit = true := by decide

/-- V-H14, and the raster header of V-H4. -/
theorem test_text :
    decAscii 0 = [0x30] ∧ decAscii 7 = [0x37] ∧ decAscii 10 = [0x31, 0x30] ∧
    rasterHeader 640 480 =
      [0x50, 0x36, 0x0A, 0x36, 0x34, 0x30, 0x20, 0x34, 0x38, 0x30, 0x0A, 0x32, 0x35, 0x35, 0x0A] := by decide

/-! ## The decoder, one step: the example and a corner of each rule -/

/-- R165, corner (a): a never-written slot gives the zero pixel, alpha 0. -/
theorem test_index_unwritten : made (exec (.index 21) (chunkAt (gray 9) 1 [0x15])) [0, 0, 0] Pixel.zero 1 := by decide

/-- R165, the example: the slot the RGB of R169 has just written. -/
theorem test_index :
    after (exec (.rgb 128 64 32) (chunkAt (gray 0) 2 [0xFE, 0x80, 0x40, 0x20, 0x15])) fun s =>
      made (exec (.index 21) { s with dec := { s.dec with prev := gray 7 } }) [0x80, 0x40, 0x20, 0x80, 0x40, 0x20]
        { r := 128, g := 64, b := 32, a := 255 } 5 := by decide

/-- R166, the example: slot 15 is written. -/
theorem test_diff :
    made (exec (.diff 1 1 (-2)) (chunkAt { r := 128, g := 64, b := 32, a := 255 } 1 [0x7C])) [0x81, 0x41, 0x1E]
      { r := 129, g := 65, b := 30, a := 255 } 1 ∧
    after (exec (.diff 1 1 (-2)) (chunkAt { r := 128, g := 64, b := 32, a := 255 } 1 [0x7C])) fun s =>
      decide (s.dec.cache.fetch 15 = { r := 129, g := 65, b := 30, a := 255 }) := by decide

/-- R166, corners (a) and (b): sums wrap and alpha 0 is carried. -/
theorem test_diff_wraps :
    made (exec (.diff 1 (-2) 0) (chunkAt { r := 255, g := 0, b := 7, a := 0 } 1 [0x76])) [0, 254, 7]
      { r := 0, g := 254, b := 7, a := 0 } 1 := by decide

/-- R167, the example: slot 17 is written. -/
theorem test_luma :
    made (exec (.luma 2 0 (-4)) (chunkAt { r := 129, g := 65, b := 30, a := 255 } 1 [0xA2, 0x84])) [0x83, 0x43, 0x1C]
      { r := 131, g := 67, b := 28, a := 255 } 2 ∧
    after (exec (.luma 2 0 (-4)) (chunkAt { r := 129, g := 65, b := 30, a := 255 } 1 [0xA2, 0x84])) fun s =>
      decide (s.dec.cache.fetch 17 = { r := 131, g := 67, b := 28, a := 255 }) := by decide

/-- R199, its last two examples, on red and blue. -/
theorem test_luma_wraps :
    made (exec (.luma (-32) (-8) 7) (chunkAt { r := 0, g := 40, b := 0, a := 255 } 1 [0x80, 0x0F])) [216, 8, 231]
      { r := 216, g := 8, b := 231, a := 255 } 2 := by decide

/-- R168, the example: `prev` twice, the cache not even written at its slot. -/
theorem test_run :
    made (exec (.run 2) (chunkAt { r := 131, g := 67, b := 28, a := 255 } 2 [0xC1])) [0x83, 0x43, 0x1C, 0x83, 0x43, 0x1C]
      { r := 131, g := 67, b := 28, a := 255 } 1 ∧
    after (exec (.run 2) (chunkAt { r := 131, g := 67, b := 28, a := 255 } 2 [0xC1])) fun s =>
      decide (s.dec.cache = Cache.init) := by decide

/-- R168, R202: one pixel more than is owed. -/
theorem test_run_overrun :
    faulted (exec (.run 3) (chunkAt (gray 1) 2 [0xC2])) (decAt (gray 1) 2 [0xC2]) .formatError .runOverrun := by decide

/-- R169, the example: slot 21 is written. -/
theorem test_rgb :
    made (exec (.rgb 128 64 32) (chunkAt (gray 0) 1 [0xFE, 0x80, 0x40, 0x20])) [0x80, 0x40, 0x20]
      { r := 128, g := 64, b := 32, a := 255 } 4 ∧
    after (exec (.rgb 128 64 32) (chunkAt (gray 0) 1 [0xFE, 0x80, 0x40, 0x20])) fun s =>
      decide (s.dec.cache.fetch 21 = { r := 128, g := 64, b := 32, a := 255 }) := by decide

/-- R170, R216: the tag as the last byte of the input. -/
theorem test_rgba :
    faulted (exec .rgba (chunkAt (gray 1) 2 [0xFF])) (decAt (gray 1) 2 [0xFF]) .unsupportedChunkError .none := by decide

/-- R116, the example: "P6 2 1 255". -/
theorem test_hdr :
    made (step headerState)
      [0x50, 0x36, 0x0A, 0x32, 0x20, 0x31, 0x0A, 0x32, 0x35, 0x35, 0x0A] Pixel.prevInit 14 := by decide

/-- R172: a good marker ends the run. -/
theorem test_endMarker :
    after (step { State.idle with dec := { decAt (gray 1) 0 [0, 0, 0, 0, 0, 0, 0, 1] with phase := .endMarker } })
      fun s => decide (s.dec.phase = .done) && decide (s.dec.inPos = 8) := by decide

/-- The step after reset fetches and runs a placed word: V-D1, and the header's. -/
theorem test_withFetchWord :
    made (step (State.reset.withFetchWord 32 0x204080FE)) [0x80, 0x40, 0x20] { r := 128, g := 64, b := 32, a := 255 } 4 ∧
    made (step (State.reset.withFetchWord 32 0x716F6966))
      [0x50, 0x36, 0x0A, 0x30, 0x20, 0x30, 0x0A, 0x32, 0x35, 0x35, 0x0A] Pixel.prevInit 14 := by decide

/-! ## The encoder, one step: the example of each rule -/

/-- R110, the example; V-H3's colorspace. -/
theorem test_enc_header :
    put ((Enc.atLaunch 2 1 0 (Buffer.ofBytes []) 30).step false)
      [0x71, 0x6F, 0x69, 0x66, 0x00, 0x00, 0x00, 0x02, 0x00, 0x00, 0x00, 0x01, 0x03, 0x00] Pixel.prevInit ∧
    put ((Enc.atLaunch 4294967295 258 1 (Buffer.ofBytes []) 30).step true)
      [0x71, 0x6F, 0x69, 0x66, 0xFF, 0xFF, 0xFF, 0xFF, 0x00, 0x00, 0x01, 0x02, 0x03, 0x01] Pixel.prevInit := by decide

/-- R134, the example. -/
theorem test_enc_run :
    put ((encAt (gray 10) [10, 10, 10, 10, 10, 10, 10, 10, 10, 7, 7, 7]).step false) [0xC2] (gray 10) := by decide

/-- R135, the example, and corner (b): black never matches a never-written slot. -/
theorem test_enc_index :
    put (({ encAt { r := 7, g := 200, b := 33, a := 255 } [100, 50, 20] with
        cache := Cache.init.store 39 { r := 100, g := 50, b := 20, a := 255 } }).step false) [0x27]
      { r := 100, g := 50, b := 20, a := 255 } ∧
    put ((encAt (gray 100) [0, 0, 0]).step false) [0xFE, 0, 0, 0] (gray 0) := by decide

/-- R137, the example; and R197's: white to black under either DELTA_WRAP. -/
theorem test_enc_diff :
    put ((encAt (gray 100) [101, 101, 98]).step false) [0x7C] { r := 101, g := 101, b := 98, a := 255 } ∧
    put ((encAt (gray 255) [0, 0, 0]).step true) [0x7F] (gray 0) ∧
    put ((encAt (gray 255) [0, 0, 0]).step false) [0xFE, 0, 0, 0] (gray 0) := by decide

/-- R138, the example. -/
theorem test_enc_luma :
    put ((encAt { r := 101, g := 101, b := 98, a := 255 } [103, 103, 96]).step false) [0xA2, 0x84]
      { r := 103, g := 103, b := 96, a := 255 } := by decide

/-- R139, the example. -/
theorem test_enc_rgb :
    put ((encAt { r := 103, g := 103, b := 96, a := 255 } [104, 143, 97]).step false) [0xFE, 0x68, 0x8F, 0x61]
      { r := 104, g := 143, b := 97, a := 255 } := by decide

/-- R142. -/
theorem test_enc_end :
    put (({ encAt (gray 3) [] with phase := .endMarker }).step false) [0, 0, 0, 0, 0, 0, 0, 1] (gray 3) := by decide

/-! ## Witnesses: the hypotheses of each obligation can be met -/

/-- DecodeInvertsEncode: every operand at both ends of its range. -/
theorem witness_DecodeInvertsEncode :
    (Instr.index 63).wellFormed ∧ (Instr.diff (-2) (-2) (-2)).wellFormed ∧ (Instr.diff 1 1 1).wellFormed ∧
    (Instr.luma (-32) (-8) (-8)).wellFormed ∧ (Instr.luma 31 7 7).wellFormed ∧ (Instr.run 1).wellFormed ∧
    (Instr.run 62).wellFormed ∧ (Instr.rgb 255 0 255).wellFormed ∧ Instr.rgba.wellFormed ∧
    (Instr.hdr 4294967295 0 255 255).wellFormed ∧ Instr.endMarker.wellFormed := by decide

/-- EncodeInvertsDecode, in each framing. -/
theorem witness_EncodeInvertsDecode :
    decode .header (0x71 :: 0x6F :: 0x69 :: 0x66 :: 0 :: 0 :: 0 :: 2 :: 0 :: 0 :: 0 :: 1 :: 3 :: 0 :: [0xC0]) =
      .ok (.hdr 2 1 3 0, [0xC0]) ∧
    decode .chunk [0xC0, 0x00] = .ok (.run 1, [0x00]) ∧
    decode .endMarker [0, 0, 0, 0, 0, 0, 0, 1, 9] = .ok (.endMarker, [9]) := ⟨rfl, rfl, rfl⟩

/-- FirstByteSelectsKind, IndexChunk, DiffChunk, LumaChunk, RunChunk: both ends of each range of first bytes. -/
theorem witness_FirstByteSelectsKind :
    ((0x00 : Byte).toNat ≤ 0x3F ∧ (0x3F : Byte).toNat ≤ 0x3F) ∧
    (0x40 ≤ (0x40 : Byte).toNat ∧ (0x7F : Byte).toNat ≤ 0x7F) ∧
    (0x80 ≤ (0x80 : Byte).toNat ∧ (0xBF : Byte).toNat ≤ 0xBF) ∧
    (0xC0 ≤ (0xC0 : Byte).toNat ∧ (0xFD : Byte).toNat ≤ 0xFD) ∧
    (0xFE : Byte).toNat = 0xFE ∧ (0xFF : Byte).toNat = 0xFF := by decide

theorem witness_HashInAnyWidth : 6 ≤ 6 ∧ Pixel.prevInit.a = 255 := by decide

/-- DeltaReadings: differences of -128 and 127, a step with small differences, and one with a channel that moves 255. -/
theorem witness_DeltaReadings :
    (((0 : Byte).toNat : Int) - (128 : Byte).toNat = -128 ∧ ((127 : Byte).toNat : Int) - (0 : Byte).toNat = 127) ∧
    (-128 ≤ delta false (encAt (gray 0) [127, 0, 1]).cur.r 0 ∧ delta false (encAt (gray 0) [127, 0, 1]).cur.r 0 ≤ 127) ∧
    ((encAt (gray 0) [255, 0, 1]).phase = .pixels ∧ (encAt (gray 0) [255, 0, 1]).pxPos < (encAt (gray 0) [255, 0, 1]).n ∧
      answers ((encAt (gray 0) [255, 0, 1]).step false) = true ∧
      ¬ delta false (encAt (gray 0) [255, 0, 1]).cur.r 0 ≤ 127) := by decide

theorem witness_ChannelAdditionWraps : (-40 : Int) ≤ -40 ∧ (-40 : Int) ≤ 38 ∧ (38 : Int) ≤ 38 := by decide

theorem witness_DecimalTextIsMinimal : (10 : Nat) ≠ 0 ∧ (0x31 : Byte) ∈ decAscii 10 := by decide

theorem witness_ready_one : (chunkAt (gray 9) 1 [0x15]).dec.ready 1 3 := by
  simp only [Dec.ready, Dec.inChunks]; decide

theorem witness_starved_one : (chunkAt (gray 9) 1 []).dec.starved 1 := by
  simp only [Dec.starved, Dec.inChunks]; decide

/-- IndexChunk, DiffChunk: the effect and the missing byte. -/
theorem witness_IndexChunk : (chunkAt (gray 9) 1 [0x15]).dec.ready 1 3 ∧ (chunkAt (gray 9) 1 []).dec.starved 1 :=
  ⟨witness_ready_one, witness_starved_one⟩

theorem witness_DiffChunk :
    (chunkAt (gray 9) 1 [0x15]).dec.ready 1 3 ∧ (chunkAt (gray 9) 1 []).dec.starved 1 ∧
    (({ r := 10, g := 7, b := 9, a := 255 } : Pixel) =
      { r := BitVec.ofInt 8 ((9 : Byte).toNat + 1), g := BitVec.ofInt 8 ((9 : Byte).toNat + -2)
        b := BitVec.ofInt 8 ((9 : Byte).toNat + 0), a := 255 }) :=
  ⟨witness_ready_one, witness_starved_one, by decide⟩

/-- LumaChunk: both bytes there, and the second missing. -/
theorem witness_LumaChunk :
    (chunkAt (gray 9) 1 [0xA0, 0x88]).dec.ready 2 3 ∧ (chunkAt (gray 9) 1 [0xA0]).dec.starved 2 := by
  simp only [Dec.ready, Dec.starved, Dec.inChunks]; decide

/-- RunChunk: exactly the pixels owed, one more, and the missing byte. -/
theorem witness_RunChunk :
    ((chunkAt (gray 9) 62 [0xFD]).dec.ready 1 (3 * 62) ∧
      62 ≤ (chunkAt (gray 9) 62 [0xFD]).dec.n - (chunkAt (gray 9) 62 [0xFD]).dec.pxCount) ∧
    ((chunkAt (gray 9) 61 [0xFD]).dec.inChunks ∧
      (chunkAt (gray 9) 61 [0xFD]).dec.inPos + 1 ≤ (chunkAt (gray 9) 61 [0xFD]).dec.input.len ∧
      (chunkAt (gray 9) 61 [0xFD]).dec.n - (chunkAt (gray 9) 61 [0xFD]).dec.pxCount < 62) ∧
    (chunkAt (gray 9) 1 []).dec.starved 1 := by
  simp only [Dec.ready, Dec.starved, Dec.inChunks]; decide

/-- RgbChunk: all four bytes there, and the last missing. -/
theorem witness_RgbChunk :
    ((chunkAt (gray 9) 1 [0xFE, 1, 2, 3]).dec.ready 4 3 ∧
      ({ r := 1, g := 2, b := 3, a := 255 } : Pixel).a = (chunkAt (gray 9) 1 [0xFE, 1, 2, 3]).dec.prev.a) ∧
    (chunkAt (gray 9) 1 [0xFE, 1, 2]).dec.starved 4 := by
  simp only [Dec.ready, Dec.starved, Dec.inChunks]; decide

theorem witness_RgbaChunk :
    (chunkAt (gray 9) 1 [0xFF]).dec.inChunks ∧
    (chunkAt (gray 9) 1 [0xFF]).dec.inPos + 1 ≤ (chunkAt (gray 9) 1 [0xFF]).dec.input.len := by
  simp only [Dec.inChunks]; decide

theorem witness_HeaderUnit :
    headerState.dec.phase = .header ∧ 14 ≤ headerState.dec.input.len ∧
    headerState.dec.outPos +
        ([0x50, 0x36, 0x0A] ++ decAscii (2 : Word32).toNat ++ [0x20] ++ decAscii (1 : Word32).toNat ++
          [0x0A, 0x32, 0x35, 0x35, 0x0A] : List Byte).length ≤
      headerState.dec.out.len := by decide

/-- A decoder at the end marker, its phase not yet moved and moved. -/
def endState (phase : DecPhase) (bytes : List Byte) : State :=
  { State.idle with dec := { decAt (gray 1) 0 bytes with phase := phase } }

theorem witness_EndMarkerUnit :
    ((endState .chunks [0, 0, 0, 0, 0, 0, 0, 1]).dec.phase = .chunks ∧
      (endState .chunks [0, 0, 0, 0, 0, 0, 0, 1]).dec.n ≤ (endState .chunks [0, 0, 0, 0, 0, 0, 0, 1]).dec.pxCount) ∧
    (endState .endMarker [0, 0, 0, 0, 0, 0, 0, 1]).dec.phase = .endMarker ∧
    (endState .endMarker [0, 0, 0, 0, 0, 0, 0, 1]).dec.inPos + 8 ≤
      (endState .endMarker [0, 0, 0, 0, 0, 0, 0, 1]).dec.input.len := by decide

theorem witness_UndispatchedInstructionIsRefused :
    State.idle.dec.framing ≠ some (Instr.run 1).framing ∧ headerState.dec.framing ≠ some (Instr.run 1).framing := by
  decide

/-- ExecFrame: every instruction answers a next state somewhere, a fault among them. -/
theorem witness_ExecFrame :
    (∃ t, exec (.index 21) (chunkAt (gray 9) 1 [0x15]) = .next t) ∧
    (∃ t, exec (.diff 0 0 0) (chunkAt (gray 9) 1 [0x6A]) = .next t) ∧
    (∃ t, exec (.luma 0 0 0) (chunkAt (gray 9) 1 [0xA0, 0x88]) = .next t) ∧
    (∃ t, exec (.run 1) (chunkAt (gray 9) 1 [0xC0]) = .next t) ∧
    (∃ t, exec (.rgb 1 2 3) (chunkAt (gray 9) 1 [0xFE, 1, 2, 3]) = .next t) ∧
    (∃ t, exec .rgba (chunkAt (gray 9) 1 [0xFF]) = .next t) ∧
    (∃ t, exec (.hdr 2 1 3 0) headerState = .next t) ∧
    (∃ t, exec .endMarker (endState .endMarker [0, 0, 0, 0, 0, 0, 0, 1]) = .next t) :=
  ⟨exists_of_answers (by decide), exists_of_answers (by decide), exists_of_answers (by decide),
    exists_of_answers (by decide), exists_of_answers (by decide), exists_of_answers (by decide),
    exists_of_answers (by decide), exists_of_answers (by decide)⟩

theorem witness_ChunkEmitsItsPixels :
    ∃ t, exec (.run 2) (chunkAt (gray 9) 2 [0xC1]) = .next t ∧ (Instr.run 2).framing = .chunk ∧ t.dec.phase ≠ .fault ∧
      (chunkAt (gray 9) 2 [0xC1]).dec.out.wf = true := ⟨_, rfl, rfl, by decide, by decide⟩

theorem witness_StepRunsDecodedInstruction :
    (chunkAt (gray 9) 1 [0xC0]).mover = some .dec ∧ (chunkAt (gray 9) 1 [0xC0]).dec.framing = some .chunk ∧
    decode .chunk ((chunkAt (gray 9) 1 [0xC0]).dec.input.window
      (if Framing.chunk = Framing.header then 0 else (chunkAt (gray 9) 1 [0xC0]).dec.inPos) Framing.chunk.window) =
      .ok (.run 1, []) := ⟨by decide, by decide, rfl⟩

theorem witness_StepRunsStoredInstruction :
    (chunkAt (gray 9) 1 [0xA0, 0x88]).mover = some .dec ∧
    (chunkAt (gray 9) 1 [0xA0, 0x88]).dec.framing = some (Instr.luma 0 0 0).framing ∧
    (Instr.luma 0 0 0).wellFormed = true ∧
    (if (Instr.luma 0 0 0).framing = .header then 0 else (chunkAt (gray 9) 1 [0xA0, 0x88]).dec.inPos) +
      (encode (.luma 0 0 0)).length ≤ (chunkAt (gray 9) 1 [0xA0, 0x88]).dec.input.len ∧
    ∀ (k : Nat) (hk : k < (encode (.luma 0 0 0)).length),
      Memory.read (chunkAt (gray 9) 1 [0xA0, 0x88]).dec.input.mem
        ((if (Instr.luma 0 0 0).framing = .header then 0 else (chunkAt (gray 9) 1 [0xA0, 0x88]).dec.inPos) + k) =
        (encode (.luma 0 0 0))[k] := by decide

/-- A launched decoder with these bytes. -/
def launched (bytes : List Byte) : State := { State.idle with dec := Dec.atLaunch (Buffer.ofBytes bytes) 29 }

/-- HeaderFaults: 0 and 13 bytes; 14 bytes of another magic. -/
theorem witness_HeaderFaults :
    (launched []).mover = some .dec ∧ (launched []).dec.phase = .header ∧ (launched []).dec.inPos = 0 ∧
    (launched []).dec.input.len < 14 ∧
    (launched [0x71, 0x6F, 0x69, 0x66, 0, 0, 0, 2, 0, 0, 0, 1, 3]).dec.input.len = 13 ∧
    14 ≤ (launched [0x71, 0x6F, 0x69, 0x67, 0, 0, 0, 2, 0, 0, 0, 1, 3, 0]).dec.input.len ∧
    ¬ (Memory.read (launched [0x71, 0x6F, 0x69, 0x67, 0, 0, 0, 2, 0, 0, 0, 1, 3, 0]).dec.input.mem 3 = 0x66) := by
  decide

/-- ChunkAvailability: no byte; a LUMA and an RGB cut at each place; the RGBA tag alone. -/
theorem witness_ChunkAvailability :
    ((chunkAt (gray 9) 1 []).mover = some .dec ∧ (chunkAt (gray 9) 1 []).dec.inChunks ∧
      (chunkAt (gray 9) 1 []).dec.input.len < (chunkAt (gray 9) 1 []).dec.inPos + 1) ∧
    ((chunkAt (gray 9) 1 [0x80]).dec.inPos < (chunkAt (gray 9) 1 [0x80]).dec.input.len ∧
      (chunkAt (gray 9) 1 [0x80]).dec.input.len < (chunkAt (gray 9) 1 [0x80]).dec.inPos + 2 ∧
      0x80 ≤ (Memory.read (chunkAt (gray 9) 1 [0x80]).dec.input.mem 0).toNat ∧
      (Memory.read (chunkAt (gray 9) 1 [0xBF]).dec.input.mem 0).toNat ≤ 0xBF) ∧
    ((chunkAt (gray 9) 1 [0xFE, 1, 2]).dec.input.len < (chunkAt (gray 9) 1 [0xFE, 1, 2]).dec.inPos + 4 ∧
      Memory.read (chunkAt (gray 9) 1 [0xFE, 1, 2]).dec.input.mem 0 = 0xFE) ∧
    ((chunkAt (gray 9) 1 [0xFF]).dec.inPos < (chunkAt (gray 9) 1 [0xFF]).dec.input.len ∧
      Memory.read (chunkAt (gray 9) 1 [0xFF]).dec.input.mem (chunkAt (gray 9) 1 [0xFF]).dec.inPos = 0xFF) := by
  simp only [Dec.inChunks]; decide

/-- EndMarkerStep: seven bytes; eight that differ in the last; the marker. -/
theorem witness_EndMarkerStep :
    (endState .endMarker [0, 0, 0, 0, 0, 0, 0]).mover = some .dec ∧
    (endState .endMarker [0, 0, 0, 0, 0, 0, 0]).dec.phase = .endMarker ∧
    (endState .endMarker [0, 0, 0, 0, 0, 0, 0]).dec.input.len <
      (endState .endMarker [0, 0, 0, 0, 0, 0, 0]).dec.inPos + 8 ∧
    (List.range 8).map (fun k => Memory.read (endState .endMarker [0, 0, 0, 0, 0, 0, 0, 2]).dec.input.mem
      ((endState .endMarker [0, 0, 0, 0, 0, 0, 0, 2]).dec.inPos + k)) ≠ [0, 0, 0, 0, 0, 0, 0, 1] ∧
    (List.range 8).map (fun k => Memory.read (endState .endMarker [0, 0, 0, 0, 0, 0, 0, 1]).dec.input.mem
      ((endState .endMarker [0, 0, 0, 0, 0, 0, 0, 1]).dec.inPos + k)) = [0, 0, 0, 0, 0, 0, 0, 1] := by decide

theorem witness_FaultsArePrecise :
    ∃ t, step (chunkAt (gray 9) 1 [0xFF]) = .next t ∧ (chunkAt (gray 9) 1 [0xFF]).dec.phase ≠ .fault ∧
      t.dec.phase = .fault := ⟨_, rfl, by decide, by decide⟩

/-- An encoder before its header step, the decoder not running. -/
def encState (decPhase : DecPhase) : State :=
  { State.idle with
    enc := Enc.atLaunch 0 0 0 (Buffer.ofBytes []) 22
    dec := { State.idle.dec with phase := decPhase } }

/-- FinishedRunsStayFinished: a step beside a finished and a faulted decoder and a finished encoder; no agent at all. -/
theorem witness_FinishedRunsStayFinished :
    (∃ t, step (encState .done) = .next t) ∧ (∃ t, step (encState .fault) = .next t) ∧
    (encState .done).dec.phase = .done ∧ (encState .fault).dec.phase = .fault ∧
    (∃ t, step { chunkAt (gray 9) 1 [0xC0] with enc := { State.idle.enc with phase := .done } } = .next t) ∧
    State.idle.enc.phase = .idle ∧ State.idle.dec.phase = .idle :=
  ⟨exists_of_answers (by decide), exists_of_answers (by decide), by decide, by decide,
    exists_of_answers (by decide), by decide, by decide⟩

/-- AgentsDoNotInterfere: two states that differ in the other agent and the step count. -/
theorem witness_AgentsDoNotInterfere :
    (chunkAt (gray 9) 1 [0xC0]).mover = some .dec ∧
    ({ chunkAt (gray 9) 1 [0xC0] with enc := { State.idle.enc with phase := .done }, tick := 7 } : State).mover = some .dec ∧
    (∃ t, step (chunkAt (gray 9) 1 [0xC0]) = .next t) ∧
    (encState .done).mover = some .enc ∧ (encState .fault).mover = some .enc ∧
    (encState .fault).enc = (encState .done).enc ∧ (∃ t, step (encState .done) = .next t) :=
  ⟨by decide, by decide, exists_of_answers (by decide), by decide, by decide, rfl, exists_of_answers (by decide)⟩

/-- AgentStepsCommute: both agents at their header. -/
theorem witness_AgentStepsCommute :
    (∃ a, stepEnc { headerState with enc := (encState .done).enc } = .next a) ∧
    (∃ b, stepDec { headerState with enc := (encState .done).enc } = .next b) :=
  ⟨exists_of_answers (by decide), exists_of_answers (by decide)⟩

theorem witness_OutputWrittenOnce : ∃ t, step (chunkAt (gray 9) 1 [0xC0]) = .next t := exists_of_answers (by decide)

/-! ### States with the invariant -/

/-- A decoder that owes one pixel: the header of a 1 by 1 image is behind it, then `RUN 1`, then the marker. -/
def owing : State :=
  { State.idle with
    dec :=
      { Dec.atLaunch
          (Buffer.ofBytes
            [0x71, 0x6F, 0x69, 0x66, 0, 0, 0, 1, 0, 0, 0, 1, 3, 0, 0xC0, 0, 0, 0, 0, 0, 0, 0, 1]) 40 with
        width := 1, height := 1, channels := 3, phase := .chunks, inPos := 14, outPos := 11
        out := { len := 40, mem := Memory.writeBytes [] 0 (rasterHeader 1 1) } } }

/-- An encoder with one black pixel left, its header behind it. -/
def pending : State :=
  { State.idle with
    enc :=
      { Enc.atLaunch 1 1 0 (Buffer.ofBytes [0, 0, 0]) 26 with
        phase := .pixels, outPos := 14
        out := { len := 26, mem := Memory.writeBytes [] 0 (encode (.hdr 1 1 3 0)) } } }

theorem owing_inv : owing.Inv := by
  refine ⟨.inl rfl, .inr ⟨⟨by decide, by decide, by decide, by decide, by decide, ?_, .inr rfl, ?_⟩, ?_⟩⟩
  · intro i; exact .inl (Cache.fetch_init i)
  · intro i; exact .inl (congrArg Pixel.a (Cache.fetch_init i))
  · exact ⟨by decide, by decide, by decide, ⟨rfl, rfl, rfl⟩, by unfold Dec.roomy; decide⟩

theorem pending_enc_inv : pending.enc.Inv := by
  refine .inr ⟨⟨by decide, by decide, by decide, by decide, by decide, rfl, ?_, ?_⟩, ?_⟩
  · intro i; exact .inl (Cache.fetch_init i)
  · intro i; exact .inl (Cache.fetch_init i)
  · exact ⟨by decide, by decide, by decide, by decide⟩

theorem idle_inv : State.idle.Inv := ⟨.inl rfl, .inl rfl⟩

/-- StepKeepsInvariant, RunningStepCompletes, CursorsAdvance: both kinds of step. -/
theorem witness_StepKeepsInvariant :
    (owing.Inv ∧ ∃ t, step owing = .next t) ∧ (pending.Inv ∧ ∃ t, step pending = .next t) :=
  ⟨⟨owing_inv, exists_of_answers (by decide)⟩, ⟨pending_enc_inv, .inl rfl⟩, exists_of_answers (by decide)⟩

theorem witness_RunningStepCompletes : owing.Inv ∧ owing.mover ≠ none := ⟨owing_inv, by decide⟩

theorem witness_CursorsAdvance :
    (pending.mover = some .enc ∧ pending.enc.phase = .pixels) ∧
    (owing.mover = some .dec ∧ owing.dec.phase = .chunks ∧ ∃ t, step owing = .next t ∧ t.dec.phase ≠ .fault) :=
  ⟨by decide, by decide, by decide, ⟨_, rfl, by decide⟩⟩

/-- Whatever MAX_PIXELS is, no pixels are admitted. -/
theorem admits_zero : admitsPixels Config.maxPixels 0 = true := by
  cases h : Config.maxPixels <;> simp [admitsPixels]

/-- LaunchMeetsInvariant, LaunchSetsEveryRegister, EncoderRunsEnd: an admitted encoder launch of an idle machine. -/
theorem witness_encoder_launch :
    State.idle.Inv ∧ State.idle.dec.running = false ∧ ∃ t, State.idle.launchEnc 0 0 0 [] 22 = .next t :=
  ⟨idle_inv, rfl, _, State.launchEnc_eq_next.2 ⟨rfl, rfl, admits_zero, by decide, rfl⟩⟩

/-- LaunchMeetsInvariant, LaunchSetsEveryRegister, DecoderRunsEnd: an admitted decoder launch of an idle machine. -/
theorem witness_decoder_launch :
    State.idle.Inv ∧ State.idle.enc.running = false ∧ ∃ t, State.idle.launchDec [] 0 = .next t :=
  ⟨idle_inv, rfl, _, State.launchDec_eq_next.2 ⟨rfl, admits_zero, by decide, rfl⟩⟩

/-- EncoderLaunchAdmission, one pixel: running; a wrong length; a limit of 0; a limit of 1 or none, and the capacities 25
and 26. -/
theorem witness_EncoderLaunchAdmission :
    (encState .done).enc.running = true ∧ State.idle.enc.running = false ∧
    ([0] : List Byte).length ≠ 3 * ((1 : Word32).toNat * (1 : Word32).toNat) ∧
    ([1, 2, 3] : List Byte).length = 3 * ((1 : Word32).toNat * (1 : Word32).toNat) ∧
    (∃ m, some 0 = some m ∧ m < (1 : Word32).toNat * (1 : Word32).toNat) ∧
    (∀ m, some 1 = some m → (1 : Word32).toNat * (1 : Word32).toNat ≤ m) ∧
    (∀ m, none = some m → (1 : Word32).toNat * (1 : Word32).toNat ≤ m) ∧
    25 < 22 + 4 * ((1 : Word32).toNat * (1 : Word32).toNat) ∧ 22 + 4 * ((1 : Word32).toNat * (1 : Word32).toNat) ≤ 26 :=
  ⟨by decide, by decide, by decide, by decide, ⟨0, by decide⟩, fun m h => by cases h; decide, nofun, by decide, by decide⟩

/-- A stream's header that announces two pixels. -/
def twoPixels : List Byte := [0x71, 0x6F, 0x69, 0x66, 0, 0, 0, 2, 0, 0, 0, 1, 3, 0]

/-- DecoderLaunchAdmission: running; a limit of 1, of 2 and none; for the header and two bytes more the capacities 16 and
17 (R253: 11 + 3 * min(2, 124)); and an input with no whole header. -/
theorem witness_DecoderLaunchAdmission :
    State.reset.dec.running = true ∧ State.idle.dec.running = false ∧
    (∃ m, some 1 = some m ∧ m < announcedPixels twoPixels) ∧
    (∀ m, some 2 = some m → announcedPixels twoPixels ≤ m) ∧ (∀ m, none = some m → announcedPixels twoPixels ≤ m) ∧
    16 < decCapacity (twoPixels ++ [0xC0, 0xC0]) ∧ decCapacity (twoPixels ++ [0xC0, 0xC0]) ≤ 17 ∧
    ([0x71] : List Byte).length < 14 :=
  ⟨by decide, by decide, ⟨1, by decide⟩, fun m h => by cases h; decide, nofun, by decide, by decide, by decide⟩

/-- R256: the decoder's result at FAULT is the triple of its status registers, and there is none while it runs. -/
theorem test_result :
    ({ State.reset.dec with phase := .fault, err := .formatError, errSub := .truncated } : Dec).result =
      some (.error { err := .formatError, errSub := .truncated, errPos := 0 }) ∧ State.reset.dec.result = none :=
  ⟨rfl, rfl⟩

/-- HostTakesResults: each agent finished with bytes put out, the decoder faulted, and both still running. -/
theorem witness_HostTakesResults :
    (({ encAt (gray 1) [] with phase := .done, outPos := 22 } : Enc).phase = .done ∧ 22 ≤ (encAt (gray 1) []).out.len) ∧
    (encAt (gray 1) []).phase ≠ .done ∧
    (({ decAt (gray 1) 0 [] with phase := .done, outPos := 11 } : Dec).phase = .done ∧
      11 ≤ (decAt (gray 1) 0 []).out.len) ∧
    ({ decAt (gray 1) 0 [] with phase := .fault } : Dec).phase = .fault ∧
    (decAt (gray 1) 0 []).phase ≠ .done ∧ (decAt (gray 1) 0 []).phase ≠ .fault := by decide

/-! ### The encoder's hypotheses -/

theorem witness_StepRunsEncoder : pending.mover = some .enc := by decide

theorem witness_EncoderHeaderStep :
    (encState .done).enc.phase = .header ∧ (encState .done).enc.outPos + 14 ≤ (encState .done).enc.out.len := by decide

/-- EncoderChunkStep: the common hypotheses (with one pixel left the count is 1), with the five branches met in turn. -/
theorem witness_EncoderChunkStep :
    (1 ≤ 1 ∧ 1 ≤ 62 ∧ pending.enc.n ≤ pending.enc.pxPos + 1 ∧ pending.enc.phase = .pixels ∧ pending.enc.pxPos < pending.enc.n ∧ 3 * pending.enc.n ≤ pending.enc.pix.len ∧
      pending.enc.outPos + 4 ≤ pending.enc.out.len) ∧
    (encAt (gray 0) [0, 0, 0]).cur = (encAt (gray 0) [0, 0, 0]).prev ∧
    (({ encAt (gray 7) [100, 50, 20] with
        cache := Cache.init.store 39 { r := 100, g := 50, b := 20, a := 255 } } : Enc).cache.fetch 39 =
      (encAt (gray 7) [100, 50, 20]).cur) ∧
    fitsDiff (-2) 1 0 = true ∧ (fitsDiff 2 2 (-2) = false ∧ fitsLuma 2 2 (-2) = true) ∧ fitsLuma 1 40 1 = false := by
  decide

theorem witness_RunCountIsMaximal :
    (encAt (gray 10) [10, 10, 10, 10, 10, 10, 7, 7, 7]).runCount = 2 ∧ 1 ≤ 1 ∧ 1 < 2 := by decide

theorem witness_EncoderEndStep :
    ({ encAt (gray 3) [] with phase := .endMarker } : Enc).phase = .endMarker ∧
    ({ encAt (gray 3) [] with phase := .endMarker } : Enc).outPos + 8 ≤
      ({ encAt (gray 3) [] with phase := .endMarker } : Enc).out.len := by decide

/-- EncoderNeverEmitsRgba, EncoderKeepsPrevCached: a chunk step, of a pixel that is not `prev`. -/
theorem witness_EncoderKeepsPrevCached :
    (encAt (gray 0) [1, 2, 3]).phase = .pixels ∧ (encAt (gray 0) [1, 2, 3]).pxPos < (encAt (gray 0) [1, 2, 3]).n ∧
    (∃ t, (encAt (gray 0) [1, 2, 3]).step false = .next t) ∧
    (encAt (gray 0) [1, 2, 3]).cur ≠ (encAt (gray 0) [1, 2, 3]).prev :=
  ⟨by decide, by decide, exists_of_answers (by decide), by decide⟩

/-! ### The two agents together -/

/-- The decoder that owes one pixel agrees with the encoder that has one left, whose chunk stands at its cursor. -/
theorem witness_ChunkLockStep :
    pending.enc.Inv ∧ pending.enc.phase = .pixels ∧ owing.dec.phase = .chunks ∧ owing.dec.n = pending.enc.n ∧
    owing.dec.prev = pending.enc.prev ∧ owing.dec.cache = pending.enc.cache ∧
    owing.dec.pxCount = pending.enc.pxPos ∧ owing.dec.out.wf = true ∧
    ∃ e', pending.enc.step false = .next e' ∧ owing.dec.outPos + 3 * (e'.pxPos - pending.enc.pxPos) ≤ owing.dec.out.len ∧
      owing.dec.inPos + (e'.outPos - pending.enc.outPos) ≤ owing.dec.input.len ∧
      ∀ k : Nat, k < e'.outPos - pending.enc.outPos →
        Memory.read owing.dec.input.mem (owing.dec.inPos + k) = Memory.read e'.out.mem (pending.enc.outPos + k) :=
  ⟨pending_enc_inv, by decide, by decide, by decide, by decide, by decide, by decide, by decide,
    _, rfl, by decide, by decide, by decide⟩

/-- CanonicalRasterIsRead: T6's raster, and V-H15's leading zero. -/
theorem witness_CanonicalRasterIsRead :
    parseRaster (rasterHeader 2 1 ++ [10, 10, 10, 10, 10, 10]) = some (2, 1, [10, 10, 10, 10, 10, 10]) ∧
    parseRaster ([0x50, 0x36, 0x0A, 0x30, 0x32, 0x20, 0x31, 0x0A, 0x32, 0x35, 0x35, 0x0A] ++ [1, 2, 3, 4, 5, 6]) =
      none := by decide

theorem witness_RasterRoundTrip :
    ([] : List Byte).length = 3 * ((0 : Word32).toNat * (0 : Word32).toNat) ∧
    admitsPixels Config.maxPixels ((0 : Word32).toNat * (0 : Word32).toNat) = true := ⟨rfl, admits_zero⟩

end Sys2Proof.Tests
end

section
/-! Proofs for the family of 00_scope: decimal text, the decoder's reading of an instruction's own bytes, and one step
of the machine as one step of the agent that moves. -/

namespace Sys2Proof.Machine

/-! ## Decimal text (R13) -/

/-- A byte made of a number below 256 holds it. -/
theorem toNat_byte {n : Nat} (h : n < 256) : (BitVec.ofNat 8 n).toNat = n :=
  (BitVec.toNat_ofNat n 8).trans (Nat.mod_eq_of_lt h)

/-- Enough fuel is enough: any bound above the number gives its text. -/
theorem decDigits_eq_decAscii {fuel n : Nat} (h : n < fuel) : decDigits fuel n = decAscii n := by
  induction n using Nat.strongRecOn generalizing fuel with
  | ind n ih =>
    obtain ⟨fuel, rfl⟩ : ∃ k, fuel = k + 1 := ⟨fuel - 1, by omega⟩
    rw [decAscii, decDigits, decDigits]
    split
    · rfl
    · rw [ih (n / 10) (by omega) (fuel := fuel) (by omega), ih (n / 10) (by omega) (fuel := n) (by omega)]

/-- A number below ten is its one digit. -/
theorem decAscii_of_lt {n : Nat} (h : n < 10) : decAscii n = [BitVec.ofNat 8 (0x30 + n)] := by
  rw [decAscii, decDigits, if_pos h]

/-- A number from ten on is the text of its tens, then its last digit. -/
theorem decAscii_of_ge {n : Nat} (h : 10 ≤ n) :
    decAscii n = decAscii (n / 10) ++ [BitVec.ofNat 8 (0x30 + n % 10)] := by
  rw [decAscii, decDigits, if_neg (by omega), decDigits_eq_decAscii (by omega)]

/-- Induction along the decimal digits: a single digit, or one digit after the tens. -/
theorem decimal_induction {P : Nat → Prop} (digit : ∀ n, n < 10 → P n) (more : ∀ n, 10 ≤ n → P (n / 10) → P n)
    (n : Nat) : P n := by
  induction n using Nat.strongRecOn with
  | ind n ih =>
    rcases Nat.lt_or_ge n 10 with h | h
    · exact digit n h
    · exact more n h (ih (n / 10) (by omega))

theorem toNat_digit {k : Nat} (h : k < 10) : (BitVec.ofNat 8 (0x30 + k)).toNat = 0x30 + k :=
  toNat_byte (by omega)

theorem digitStep_digit (acc : Nat) {k : Nat} (h : k < 10) :
    digitStep acc (BitVec.ofNat 8 (0x30 + k)) = 10 * acc + k := by
  rw [digitStep, toNat_digit h, Nat.add_sub_cancel_left]

theorem digitsValue_append_singleton (bs : List Byte) (b : Byte) :
    digitsValue (bs ++ [b]) = digitStep (digitsValue bs) b := by
  rw [digitsValue, List.foldl_append]; rfl

theorem decAscii_ne_nil (n : Nat) : decAscii n ≠ [] := by
  rcases Nat.lt_or_ge n 10 with h | h
  · simp [decAscii_of_lt h]
  · simp [decAscii_of_ge h]

/-- Every byte of a decimal text is an ASCII digit. -/
theorem decAscii_digits (n : Nat) : ∀ b ∈ decAscii n, 0x30 ≤ b.toNat ∧ b.toNat ≤ 0x39 := by
  have digit : ∀ k, k < 10 → ∀ b ∈ [BitVec.ofNat 8 (0x30 + k)], 0x30 ≤ b.toNat ∧ b.toNat ≤ 0x39 := by
    intro k hk b hb
    rw [List.mem_singleton.1 hb, toNat_digit hk]
    omega
  induction n using decimal_induction with
  | digit n h => exact decAscii_of_lt h ▸ digit n h
  | more n h ih =>
    rw [decAscii_of_ge h, List.forall_mem_append]
    exact ⟨ih, digit (n % 10) (by omega)⟩

/-- A decimal text reads back as its number. -/
theorem digitsValue_decAscii (n : Nat) : digitsValue (decAscii n) = n := by
  induction n using decimal_induction with
  | digit n h =>
    rw [decAscii_of_lt h]
    exact (digitStep_digit 0 h).trans (by omega)
  | more n h ih =>
    rw [decAscii_of_ge h, digitsValue_append_singleton, ih, digitStep_digit _ (by omega)]
    omega

/-- Only zero's text begins with the digit 0. -/
theorem decAscii_head_ne_zero {n : Nat} (h0 : n ≠ 0) : (decAscii n).head? ≠ some 0x30 := by
  induction n using decimal_induction with
  | digit n h =>
    rw [decAscii_of_lt h, List.head?_cons]
    intro he
    have hb : 0x30 + n = 0x30 := toNat_digit h ▸ congrArg BitVec.toNat (Option.some.inj he)
    omega
  | more n h ih =>
    obtain ⟨b, bs, hcons⟩ := List.exists_cons_of_ne_nil (decAscii_ne_nil (n / 10))
    rw [decAscii_of_ge h, hcons, List.cons_append, List.head?_cons, ← List.head?_cons (l := bs), ← hcons]
    exact ih (by omega)

/-! ## A chunk by its first byte (R89, R94) -/

/-- Below both tags the two top bits select the kind. -/
theorem decodeChunk_of_le_FD {b0 : Byte} (h : b0.toNat ≤ 0xFD) (rest : List Byte) :
    decodeChunk (b0 :: rest) =
      if b0.toNat / 64 = 0 then .ok (.index (Fin.ofNat 64 (b0.toNat % 64)), rest)
      else if b0.toNat / 64 = 1 then
        .ok (.diff (unbias diffBias (b0.toNat / 16 % 4)) (unbias diffBias (b0.toNat / 4 % 4))
          (unbias diffBias (b0.toNat % 4)), rest)
      else if b0.toNat / 64 = 2 then decodeLuma b0 rest
      else .ok (.run (b0.toNat % 64 + 1), rest) := by
  have hE : b0 ≠ 0xFE := BitVec.ne_of_lt (Nat.lt_of_le_of_lt h (by decide))
  have hF : b0 ≠ 0xFF := BitVec.ne_of_lt (Nat.lt_of_le_of_lt h (by decide))
  have htop : b0.toNat / 64 % 4 = b0.toNat / 64 := Nat.mod_eq_of_lt (by omega)
  rw [decodeChunk, if_neg hE, if_neg hF]
  simp [bits, htop]

theorem decodeChunk_index {b0 : Byte} (h : b0.toNat ≤ 0x3F) (rest : List Byte) :
    decodeChunk (b0 :: rest) = .ok (.index (Fin.ofNat 64 b0.toNat), rest) := by
  rw [decodeChunk_of_le_FD (by omega), if_pos (by omega), Nat.mod_eq_of_lt (by omega)]

theorem decodeChunk_diff {b0 : Byte} (hlo : 0x40 ≤ b0.toNat) (hhi : b0.toNat ≤ 0x7F) (rest : List Byte) :
    decodeChunk (b0 :: rest) =
      .ok (.diff (unbias diffBias (b0.toNat / 16 % 4)) (unbias diffBias (b0.toNat / 4 % 4))
        (unbias diffBias (b0.toNat % 4)), rest) := by
  rw [decodeChunk_of_le_FD (by omega), if_neg (by omega), if_pos (by omega)]

theorem decodeChunk_luma {b0 : Byte} (hlo : 0x80 ≤ b0.toNat) (hhi : b0.toNat ≤ 0xBF) (rest : List Byte) :
    decodeChunk (b0 :: rest) = decodeLuma b0 rest := by
  rw [decodeChunk_of_le_FD (by omega), if_neg (by omega), if_neg (by omega), if_pos (by omega)]

theorem decodeChunk_run {b0 : Byte} (hlo : 0xC0 ≤ b0.toNat) (hhi : b0.toNat ≤ 0xFD) (rest : List Byte) :
    decodeChunk (b0 :: rest) = .ok (.run (b0.toNat % 64 + 1), rest) := by
  rw [decodeChunk_of_le_FD hhi, if_neg (by omega), if_neg (by omega), if_neg (by omega)]

/-! ## Decoding undoes encoding (R93, R94, R100) -/

/-- The stored field of a value in range is below its bound, and taking the bias off gives the value back (R93). -/
theorem biased_field {bias d : Int} {k : Nat} (lo : 0 ≤ d + bias) (hi : d + bias < k) :
    biased bias d < k ∧ unbias bias (biased bias d) = d := by
  simp only [unbias, biased, Int.ofNat_eq_natCast]
  omega

/-- The two-bit fields of DIFF (R82). -/
theorem diff_field {d : Int} (h : -2 ≤ d ∧ d ≤ 1) :
    biased diffBias d < 4 ∧ unbias diffBias (biased diffBias d) = d :=
  biased_field (by unfold diffBias; omega) (by unfold diffBias; omega)

/-- The six-bit field of LUMA (R83). -/
theorem lumaG_field {d : Int} (h : -32 ≤ d ∧ d ≤ 31) :
    biased lumaGBias d < 64 ∧ unbias lumaGBias (biased lumaGBias d) = d :=
  biased_field (by unfold lumaGBias; omega) (by unfold lumaGBias; omega)

/-- The four-bit fields of LUMA (R83). -/
theorem lumaRb_field {d : Int} (h : -8 ≤ d ∧ d ≤ 7) :
    biased lumaRbBias d < 16 ∧ unbias lumaRbBias (biased lumaRbBias d) = d :=
  biased_field (by unfold lumaRbBias; omega) (by unfold lumaRbBias; omega)

/-- The four bytes of a header field read back as the field (R56). -/
theorem rdBe32_be32 (v : Word32) :
    rdBe32 (BitVec.ofNat 8 (v.toNat / 2 ^ 24)) (BitVec.ofNat 8 (v.toNat / 2 ^ 16)) (BitVec.ofNat 8 (v.toNat / 2 ^ 8))
      (BitVec.ofNat 8 v.toNat) = v := by
  have hv := v.isLt
  apply BitVec.eq_of_toNat_eq
  simp only [rdBe32, BitVec.toNat_ofNat]
  omega

theorem decode_encode_index (slot : Slot) (rest : List Byte) :
    decodeChunk (encode (.index slot) ++ rest) = .ok (.index slot, rest) := by
  have hs := slot.isLt
  have hbyte := toNat_byte (n := slot.val) (by omega)
  rw [encode, List.singleton_append, decodeChunk_index (by omega), hbyte,
    show Fin.ofNat 64 slot.val = slot from Fin.ext (Nat.mod_eq_of_lt hs)]

theorem decode_encode_diff {dr dg db : Int} (rest : List Byte) (hr : -2 ≤ dr ∧ dr ≤ 1) (hg : -2 ≤ dg ∧ dg ≤ 1)
    (hb : -2 ≤ db ∧ db ≤ 1) :
    decodeChunk (encode (.diff dr dg db) ++ rest) = .ok (.diff dr dg db, rest) := by
  obtain ⟨hr4, hr⟩ := diff_field hr
  obtain ⟨hg4, hg⟩ := diff_field hg
  obtain ⟨hb4, hb⟩ := diff_field hb
  rw [encode, List.singleton_append]
  generalize biased diffBias dr = r at *
  generalize biased diffBias dg = g at *
  generalize biased diffBias db = b at *
  have hbyte := toNat_byte (n := 0x40 + 16 * r + 4 * g + b) (by omega)
  rw [decodeChunk_diff (by omega) (by omega), hbyte, show (0x40 + 16 * r + 4 * g + b) / 16 % 4 = r by omega,
    show (0x40 + 16 * r + 4 * g + b) / 4 % 4 = g by omega, show (0x40 + 16 * r + 4 * g + b) % 4 = b by omega, hr, hg, hb]

theorem decode_encode_luma {dg drDg dbDg : Int} (rest : List Byte) (hg : -32 ≤ dg ∧ dg ≤ 31)
    (hr : -8 ≤ drDg ∧ drDg ≤ 7) (hb : -8 ≤ dbDg ∧ dbDg ≤ 7) :
    decodeChunk (encode (.luma dg drDg dbDg) ++ rest) = .ok (.luma dg drDg dbDg, rest) := by
  obtain ⟨hg64, hg⟩ := lumaG_field hg
  obtain ⟨hr16, hr⟩ := lumaRb_field hr
  obtain ⟨hb16, hb⟩ := lumaRb_field hb
  rw [encode, List.cons_append, List.singleton_append]
  generalize biased lumaGBias dg = g at *
  generalize biased lumaRbBias drDg = r at *
  generalize biased lumaRbBias dbDg = b at *
  have hbyte0 := toNat_byte (n := 0x80 + g) (by omega)
  have hbyte1 := toNat_byte (n := 16 * r + b) (by omega)
  have hfieldG : bits (BitVec.ofNat 8 (0x80 + g)) 5 0 = g := by rw [bits, hbyte0]; omega
  have hfieldR : bits (BitVec.ofNat 8 (16 * r + b)) 7 4 = r := by rw [bits, hbyte1]; omega
  have hfieldB : bits (BitVec.ofNat 8 (16 * r + b)) 3 0 = b := by rw [bits, hbyte1]; omega
  rw [decodeChunk_luma (by omega) (by omega), decodeLuma, hfieldG, hfieldR, hfieldB, hg, hr, hb]

theorem decode_encode_run {count : Nat} (rest : List Byte) (hlo : 1 ≤ count) (hhi : count ≤ 62) :
    decodeChunk (encode (.run count) ++ rest) = .ok (.run count, rest) := by
  have hbyte := toNat_byte (n := 0xC0 + (count - 1)) (by omega)
  rw [encode, List.singleton_append, decodeChunk_run (by omega) (by omega), hbyte,
    show (0xC0 + (count - 1)) % 64 + 1 = count by omega]

theorem decode_encode_hdr (width height : Word32) (channels colorspace : Byte) (rest : List Byte) :
    decodeHeader (encode (.hdr width height channels colorspace) ++ rest) =
      .ok (.hdr width height channels colorspace, rest) := by
  simp only [encode, Config.magic, be32, List.cons_append, List.nil_append, decodeHeader, if_true, rdBe32_be32]

/-- Decoding the bytes of a well-formed instruction, whatever follows, gives the instruction back. -/
theorem decode_encode {i : Instr} (hw : i.wellFormed = true) (rest : List Byte) :
    decode i.framing (encode i ++ rest) = .ok (i, rest) := by
  cases i with
  | index slot => exact decode_encode_index slot rest
  | diff dr dg db =>
    obtain ⟨hr, hg, hb⟩ := (fitsDiff_iff dr dg db).1 hw
    exact decode_encode_diff rest hr hg hb
  | luma dg drDg dbDg =>
    simp only [Instr.wellFormed, Bool.and_eq_true, inRange_iff] at hw
    obtain ⟨⟨hg, hr⟩, hb⟩ := hw
    exact decode_encode_luma rest hg hr hb
  | run count =>
    simp only [Instr.wellFormed, Bool.and_eq_true, decide_eq_true_eq] at hw
    exact decode_encode_run rest hw.1 hw.2
  | rgb r g b => rfl
  | rgba => rfl
  | hdr width height channels colorspace => exact decode_encode_hdr width height channels colorspace rest
  | endMarker => rfl

/-! ## The step of each agent (R7, R8) -/

theorem step_of_mover_dec {s : State} (h : s.mover = some .dec) : step s = stepDec s := by
  rw [step, h]

theorem step_of_mover_enc {s : State} (h : s.mover = some .enc) : step s = stepEnc s := by
  rw [step, h]

/-- The decoder's loop test, by the count reached. -/
theorem Dec.loopTest_eq (d : Dec) :
    d.loopTest = if d.phase = .chunks ∧ d.n ≤ d.pxCount then { d with phase := .endMarker } else d := by
  simp only [Dec.loopTest, Nat.not_lt]

/-- The encoder's loop test, by the cursor reached. -/
theorem Enc.loopTest_eq (e : Enc) :
    e.loopTest = if e.phase = .pixels ∧ e.n ≤ e.pxPos then { e with phase := .endMarker } else e := by
  simp only [Enc.loopTest, Nat.not_lt]

/-- The header is fetched at address 0, all else at the cursor. -/
theorem Dec.fetchPos_eq (d : Dec) (f : Framing) : d.fetchPos f = if f = .header then 0 else d.inPos := by
  cases f <;> rfl

/-- What the window at the fetch place decodes to is what is fetched. -/
theorem Dec.fetch_of_decode {d : Dec} {f : Framing} {i : Instr} {rest : List Byte}
    (h : decode f (d.input.window (if f = .header then 0 else d.inPos) f.window) = .ok (i, rest)) :
    d.fetch f = .ok i := by
  rw [Dec.fetch, Dec.fetchPos_eq, h]

/-- A decoder step that fetches an instruction executes it and makes the loop test. -/
theorem stepDec_of_fetch {s : State} {f : Framing} {i : Instr} (hf : s.dec.framing = some f)
    (hi : s.dec.fetch f = .ok i) : stepDec s = andThen (exec i s) fun t => .next t.endDec := by
  simp only [stepDec, hf, hi]

/-- One step of the decoder on its own registers, before the loop test (R161), the counterpart of `Enc.step`. -/
def Dec.step (d : Dec) : Answer Dec :=
  match d.framing with
  | none => .fault .noRun
  | some f =>
    match d.fetch f with
    | .ok i => d.dispatch i (Dec.body i)
    | .error e => .next (d.raiseDecode e)

/-- A decoder step of the machine is `Dec.step` on the decoder alone, then the loop test. -/
theorem stepDec_eq (s : State) :
    stepDec s = andThen s.dec.step fun d => .next { s with dec := d.loopTest, tick := s.tick + 1 } := by
  cases hf : s.dec.framing with
  | none => simp only [stepDec, Dec.step, hf, andThen_fault]
  | some f =>
    cases hi : s.dec.fetch f with
    | error e => simp only [stepDec, Dec.step, hf, hi, andThen_next]; rfl
    | ok i =>
      simp only [stepDec_of_fetch hf hi, Dec.step, hf, hi, exec_eq_dispatch, State.onDec]
      cases s.dec.dispatch i (Dec.body i) <;> rfl

/-- An encoder step of the machine is `Enc.step` on the encoder alone, then the loop test. -/
theorem stepEnc_eq (s : State) :
    stepEnc s =
      andThen (s.enc.step Config.deltaWrap) fun e => .next { s with enc := e.loopTest, tick := s.tick + 1 } := by
  rw [stepEnc, State.onEnc]
  cases s.enc.step Config.deltaWrap <;> rfl

/-! ## The statements -/

/-- Settles O8: along the decimal digits, each clause by the lemma that names it. -/
theorem decimalTextIsMinimal : Obligations.DecimalTextIsMinimal :=
  ⟨rfl, fun n => ⟨decAscii_ne_nil n, decAscii_digits n, digitsValue_decAscii n, decAscii_head_ne_zero⟩⟩

/-- Settles O21: the window's reading is the instruction fetched. -/
theorem stepRunsDecodedInstruction : Obligations.StepRunsDecodedInstruction := by
  intro s f i rest hm hf hd
  rw [step_of_mover_dec hm, stepDec_of_fetch hf (Dec.fetch_of_decode hd)]
  cases exec i s with
  | next t => rw [andThen_next, State.endDec, Dec.loopTest_eq]
  | fault r => rfl
  | refused r => rfl

/-- Settles O22: the window begins with the stored encoding, which decodes to its instruction. -/
theorem stepRunsStoredInstruction : Obligations.StepRunsStoredInstruction := by
  intro s i hm hf hw hlen hread
  have hfits : (encode i).length ≤ i.framing.window := encode_length i ▸ Instr.length_le_window i
  have hwin := Buffer.window_eq_append hfits hlen hread
  exact stepRunsDecodedInstruction s i.framing i _ hm hf (hwin ▸ decode_encode hw _)

/-- Settles O28: each agent's step is a function of its own registers, put back into the machine. -/
theorem agentsDoNotInterfere : Obligations.AgentsDoNotInterfere := by
  constructor
  · intro s s' t hm hm' heq h
    rw [step_of_mover_dec hm, stepDec_eq, andThen_eq_next] at h
    obtain ⟨d, hd, ht⟩ := h
    cases ht
    rw [step_of_mover_dec hm', stepDec_eq, heq, hd]
    exact ⟨rfl, _, rfl, rfl, rfl⟩
  · intro s s' t hm hm' heq h
    rw [step_of_mover_enc hm, stepEnc_eq, andThen_eq_next] at h
    obtain ⟨e, he, ht⟩ := h
    cases ht
    rw [step_of_mover_enc hm', stepEnc_eq, heq, he]
    exact ⟨rfl, _, rfl, rfl, rfl⟩

/-- Settles O40: an encoder step of the machine is `Enc.step`, then the loop test. -/
theorem stepRunsEncoder : Obligations.StepRunsEncoder := by
  intro s hm
  rw [step_of_mover_enc hm, stepEnc_eq]
  cases s.enc.step Config.deltaWrap with
  | next e => rw [andThen_next, Enc.loopTest_eq]
  | fault r => rfl
  | refused r => rfl

end Sys2Proof.Machine
end

section
/-! Proofs for the family of 10_state: the invariant at reset, at a launch and along every step, the cursors, and the
lock-step of the two agents. -/

namespace Sys2Proof.Machine

/-! ## The cache rules (R44, R45, R179) -/

/-- What holds of every slot and of the pixel written still holds of every slot after the write. -/
theorem Cache.forall_fetch_store {P : Slot → Pixel → Prop} {c : Cache} {p : Pixel} (h : ∀ i, P i (c.fetch i))
    (hp : P (pxHash p) p) (i : Slot) : P i ((c.store (pxHash p) p).fetch i) := by
  rw [Cache.fetch_store]
  split
  next hi => exact hi ▸ hp
  · exact h i

theorem Cache.init_coherent : Cache.init.coherent := fun i => .inl (Cache.fetch_init i)

theorem Cache.init_opaqueAlpha : Cache.init.opaqueAlpha := fun i => .inl (Cache.fetch_init i)

theorem Cache.init_binaryAlpha : Cache.init.binaryAlpha := fun i => .inl (by rw [Cache.fetch_init]; rfl)

theorem Cache.coherent.store {c : Cache} (h : c.coherent) (p : Pixel) : (c.store (pxHash p) p).coherent :=
  Cache.forall_fetch_store (P := fun i q => q = Pixel.zero ∨ pxHash q = i) h (.inr rfl)

theorem Cache.opaqueAlpha.store {c : Cache} (h : c.opaqueAlpha) {p : Pixel} (hp : p.a = 255) :
    (c.store (pxHash p) p).opaqueAlpha :=
  Cache.forall_fetch_store (P := fun _ q => q = Pixel.zero ∨ q.a = 255) h (.inr hp)

theorem Cache.binaryAlpha.store {c : Cache} (h : c.binaryAlpha) {p : Pixel} (hp : p.a = 0 ∨ p.a = 255) :
    (c.store (pxHash p) p).binaryAlpha :=
  Cache.forall_fetch_store (P := fun _ q => q.a = 0 ∨ q.a = 255) h hp

/-! ## The encoder's invariant, phase by phase -/

theorem Enc.placed_header {e : Enc} (h : e.phase = .header) : e.Placed ↔ e.pxPos = 0 ∧ e.outPos = 0 := by
  simp only [Enc.Placed, h]

theorem Enc.placed_pixels {e : Enc} (h : e.phase = .pixels) :
    e.Placed ↔ e.pxPos < e.n ∧ 14 ≤ e.outPos ∧ e.outPos ≤ 14 + 4 * e.pxPos ∧ e.pxPos ≤ 62 * (e.outPos - 14) := by
  simp only [Enc.Placed, h]

theorem Enc.placed_endMarker {e : Enc} (h : e.phase = .endMarker) :
    e.Placed ↔ e.pxPos = e.n ∧ 14 ≤ e.outPos ∧ e.outPos ≤ 14 + 4 * e.n ∧ e.n ≤ 62 * (e.outPos - 14) := by
  simp only [Enc.Placed, h]

theorem Enc.placed_done {e : Enc} (h : e.phase = .done) :
    e.Placed ↔ e.pxPos = e.n ∧ 22 ≤ e.outPos ∧ e.outPos ≤ 22 + 4 * e.n ∧ e.n ≤ 62 * (e.outPos - 22) := by
  simp only [Enc.Placed, h]

/-- In PIXELS the invariant gives a pixel still to encode. -/
theorem Enc.Inv.pixel_left {e : Enc} (h : e.Inv) (phase : e.phase = .pixels) : e.pxPos < e.n := by
  obtain ⟨-, hp⟩ := h.resolve_left (by simp [phase])
  exact ((Enc.placed_pixels phase).1 hp).1

/-- The loop test puts an encoder in PIXELS whose cursors are in range where its phase asks (R131). -/
theorem Enc.loopTest_placed {e : Enc} (phase : e.phase = .pixels) (cursor : e.pxPos ≤ e.n)
    (range : 14 ≤ e.outPos ∧ e.outPos ≤ 14 + 4 * e.pxPos ∧ e.pxPos ≤ 62 * (e.outPos - 14)) : e.loopTest.Placed := by
  by_cases hlt : e.pxPos < e.n
  · rw [Enc.placed_pixels (by simp [Enc.loopTest_phase, phase, hlt])]
    simpa using ⟨hlt, range⟩
  · have heq : e.pxPos = e.n := by omega
    rw [Enc.placed_endMarker (by simp [Enc.loopTest_phase, phase, hlt])]
    simpa [heq] using range

theorem Enc.Sound.loopTest {e : Enc} (h : e.Sound) : e.loopTest.Sound := by
  unfold Enc.loopTest
  split
  · exact ⟨h.pixWf, h.outWf, h.pixLen, h.capacity, h.cursor, h.alpha, h.coherent, h.alphas⟩
  · exact h

/-! ## Every move of the encoder keeps its invariant -/

theorem Enc.Moves.ne_idle {e t : Enc} (h : e.Moves t) : e.phase ≠ .idle := by
  cases h with
  | header phase => simp [phase]
  | chunk i c n phase => simp [phase]
  | marker phase => obtain phase | ⟨phase, -⟩ := phase <;> simp [phase]

theorem Enc.Moves.sound {e t : Enc} (h : e.Moves t) (hs : e.Sound) : t.Sound := by
  cases h with
  | header phase room =>
    exact ⟨hs.pixWf, Buffer.store_wf hs.outWf room, hs.pixLen, hs.capacity, hs.cursor, hs.alpha, hs.coherent, hs.alphas⟩
  | chunk i c n phase kind executable wf present number count color cache room =>
    have hcache : c.coherent ∧ c.opaqueAlpha := by
      obtain rfl | rfl := cache
      · exact ⟨hs.coherent, hs.alphas⟩
      · exact ⟨hs.coherent.store _, hs.alphas.store rfl⟩
    rw [← encode_length] at room
    exact ⟨hs.pixWf, Buffer.store_wf hs.outWf room, hs.pixLen, hs.capacity, count, rfl, hcache.1, hcache.2⟩
  | marker phase room =>
    exact ⟨hs.pixWf, Buffer.store_wf hs.outWf room, hs.pixLen, hs.capacity, hs.cursor, hs.alpha, hs.coherent, hs.alphas⟩

/-- A chunk instruction is one to four bytes (R89). -/
theorem Instr.length_le_four {i : Instr} (h : i.framing = .chunk) : i.length ≤ 4 := by
  simpa [h, Framing.window] using Instr.length_le_window i

theorem Enc.Moves.placed {e t : Enc} (h : e.Moves t) (hs : e.Sound) (hp : e.Placed) : t.loopTest.Placed := by
  cases h with
  | header phase room =>
    obtain ⟨hpx, hout⟩ := (Enc.placed_header phase).1 hp
    exact Enc.loopTest_placed rfl hs.cursor (by simp [hpx, hout])
  | chunk i c n phase kind executable wf present number count color cache room =>
    obtain ⟨-, range⟩ := (Enc.placed_pixels phase).1 hp
    have hpos := Instr.length_pos i
    have hfour := Instr.length_le_four kind
    exact Enc.loopTest_placed phase count (by dsimp only; omega)
  | marker phase room =>
    obtain phase | ⟨phase, hle⟩ := phase
    · have range := (Enc.placed_endMarker phase).1 hp
      rw [Enc.loopTest_of_ne (by simp), Enc.placed_done rfl]
      dsimp only [Enc.n] at range ⊢
      omega
    · exact absurd ((Enc.placed_pixels phase).1 hp).1 hle

theorem Enc.Moves.inv {e t : Enc} (h : e.Moves t) (hi : e.Inv) : t.loopTest.Inv := by
  obtain ⟨hs, hp⟩ := hi.resolve_left h.ne_idle
  exact .inr ⟨(h.sound hs).loopTest, h.placed hs hp⟩

/-! ## What a fetch gives (R53, R93) -/

theorem decodeHeader_eq_ok {bs rest : List Byte} {i : Instr} (h : decodeHeader bs = .ok (i, rest)) :
    ∃ w ht ch cs, i = .hdr w ht ch cs := by
  unfold decodeHeader at h
  split at h
  · split at h
    · cases h; exact ⟨_, _, _, _, rfl⟩
    · exact nomatch h
  · exact nomatch h

theorem decodeEnd_eq_ok {bs rest : List Byte} {i : Instr} (h : decodeEnd bs = .ok (i, rest)) : i = .endMarker := by
  unfold decodeEnd at h
  split at h
  · split at h
    · cases h; rfl
    · exact nomatch h
  · exact nomatch h

/-- A field with its bias taken off is in the range of R93. -/
theorem unbias_inRange {f k : Nat} {bias lo hi : Int} (hf : f < k) (hlo : lo = -bias) (hhi : hi = k - 1 - bias) :
    inRange (unbias bias f) lo hi = true := by
  rw [inRange_iff, unbias, Int.ofNat_eq_natCast]
  omega

theorem bits_lt (v : Byte) (hi lo : Nat) : bits v hi lo < 2 ^ (hi - lo + 1) :=
  Nat.mod_lt _ (Nat.two_pow_pos _)

theorem decodeLuma_wellFormed {b0 : Byte} {bs rest : List Byte} {i : Instr} (h : decodeLuma b0 bs = .ok (i, rest)) :
    i.wellFormed = true := by
  unfold decodeLuma at h
  split at h
  next b1 rest' =>
    cases h
    rw [Instr.wellFormed, Bool.and_eq_true, Bool.and_eq_true]
    exact ⟨⟨unbias_inRange (bits_lt _ _ _) rfl rfl, unbias_inRange (bits_lt _ _ _) rfl rfl⟩,
      unbias_inRange (bits_lt _ _ _) rfl rfl⟩
  · exact nomatch h

theorem decodeRgb_wellFormed {bs rest : List Byte} {i : Instr} (h : decodeRgb bs = .ok (i, rest)) :
    i.wellFormed = true := by
  unfold decodeRgb at h
  split at h
  · cases h; rfl
  · exact nomatch h

/-- A byte that is neither tag is below both. -/
theorem toNat_le_FD {b : Byte} (hE : b ≠ 0xFE) (hF : b ≠ 0xFF) : b.toNat ≤ 0xFD := by
  have hlt := b.isLt
  have hE' : b.toNat ≠ 0xFE := fun h => hE (BitVec.eq_of_toNat_eq h)
  have hF' : b.toNat ≠ 0xFF := fun h => hF (BitVec.eq_of_toNat_eq h)
  omega

/-- The operands of a decoded chunk are in the ranges of R93, by its first byte. -/
theorem decodeChunk_wellFormed {bs rest : List Byte} {i : Instr} (h : decodeChunk bs = .ok (i, rest)) :
    i.wellFormed = true := by
  cases bs with
  | nil => exact nomatch h
  | cons b0 bs =>
    by_cases hE : b0 = 0xFE
    · rw [decodeChunk, if_pos hE] at h
      exact decodeRgb_wellFormed h
    by_cases hF : b0 = 0xFF
    · rw [decodeChunk, if_neg hE, if_pos hF] at h
      cases h; rfl
    have hle := toNat_le_FD hE hF
    rw [decodeChunk_of_le_FD hle] at h
    split at h
    · cases h; rfl
    split at h
    · cases h
      have hfour : 0 < 4 := by decide
      rw [Instr.wellFormed, Bool.and_eq_true, Bool.and_eq_true]
      exact ⟨⟨unbias_inRange (Nat.mod_lt _ hfour) rfl rfl, unbias_inRange (Nat.mod_lt _ hfour) rfl rfl⟩,
        unbias_inRange (Nat.mod_lt _ hfour) rfl rfl⟩
    split at h
    · exact decodeLuma_wellFormed h
    · cases h
      rw [Instr.wellFormed, Bool.and_eq_true, decide_eq_true_eq, decide_eq_true_eq, Config.runMax]
      omega

theorem decode_wellFormed {f : Framing} {bs rest : List Byte} {i : Instr} (h : decode f bs = .ok (i, rest)) :
    i.wellFormed = true := by
  cases f with
  | header => obtain ⟨_, _, _, _, rfl⟩ := decodeHeader_eq_ok h; rfl
  | chunk => exact decodeChunk_wellFormed h
  | endMarker => rw [decodeEnd_eq_ok h]; rfl

/-- A fetch that gives an instruction decoded the window at its place. -/
theorem Dec.fetch_eq_ok {d : Dec} {f : Framing} {i : Instr} (h : d.fetch f = .ok i) :
    ∃ rest, decode f (d.input.window (d.fetchPos f) f.window) = .ok (i, rest) := by
  unfold Dec.fetch at h
  split at h
  next rest hd => cases h; exact ⟨rest, hd⟩
  · exact nomatch h

theorem Dec.fetch_wellFormed {d : Dec} {f : Framing} {i : Instr} (h : d.fetch f = .ok i) : i.wellFormed = true := by
  obtain ⟨rest, hd⟩ := Dec.fetch_eq_ok h
  exact decode_wellFormed hd

/-- The header fetched has the width and height that the launch read from the same bytes (R53, R253). -/
theorem Dec.headerSize_of_fetch {d : Dec} {w h : Word32} {ch cs : Byte} (hd : d.fetch .header = .ok (.hdr w h ch cs)) :
    headerSize (d.input.window 0 d.input.len) = some (w, h) := by
  obtain ⟨rest, hdec⟩ := Dec.fetch_eq_ok hd
  have hsize : headerSize (d.input.window 0 14) = some (w, h) := headerSize_of_decode hdec
  have hlong := d.input.window_take 0 (Nat.le_max_left 14 d.input.len)
  have hall : d.input.window 0 d.input.len = d.input.window 0 (max 14 d.input.len) := by
    rw [d.input.window_take 0 (Nat.le_max_right 14 d.input.len), List.take_of_length_le]
    rw [Buffer.window_length]
    omega
  rw [hall, ← headerSize_take, ← hlong, hsize]

theorem decCapacity_of_headerSize {bs : List Byte} {w h : Word32} (hs : headerSize bs = some (w, h)) :
    decCapacity bs = (rasterHeader w h).length + 3 * min (w.toNat * h.toNat) (62 * (bs.length - 14)) := by
  simp only [decCapacity, hs]

/-! ## The decoder's invariant, phase by phase -/

theorem Dec.placed_header {d : Dec} (h : d.phase = .header) :
    d.Placed ↔ d.inPos = 0 ∧ d.pxCount = 0 ∧ d.outPos = 0 ∧ d.noError ∧
      decCapacity (d.input.window 0 d.input.len) ≤ d.out.len := by
  simp only [Dec.Placed, h]

theorem Dec.placed_chunks {d : Dec} (h : d.phase = .chunks) :
    d.Placed ↔ d.pxCount < d.n ∧ 14 ≤ d.inPos ∧ d.outPos = d.hdrLen + 3 * d.pxCount ∧ d.noError ∧ d.roomy := by
  simp only [Dec.Placed, h]

theorem Dec.placed_endMarker {d : Dec} (h : d.phase = .endMarker) :
    d.Placed ↔ d.pxCount = d.n ∧ 14 ≤ d.inPos ∧ d.outPos = d.hdrLen + 3 * d.n ∧ d.noError := by
  simp only [Dec.Placed, h]

theorem Dec.placed_done {d : Dec} (h : d.phase = .done) :
    d.Placed ↔ d.pxCount = d.n ∧ 22 ≤ d.inPos ∧ d.outPos = d.hdrLen + 3 * d.n ∧ d.noError := by
  simp only [Dec.Placed, h]

theorem Dec.placed_fault {d : Dec} (h : d.phase = .fault) : d.Placed ↔ d.errPos = d.inPos ∧ d.err.allows d.errSub := by
  simp only [Dec.Placed, h, ErrKind.allows]

theorem Dec.ne_idle_of_framing {d : Dec} {f : Framing} (h : d.framing = some f) : d.phase ≠ .idle := by
  intro hp
  simp [Dec.framing, hp] at h

/-- In CHUNKS the invariant gives a pixel still owed, so a chunk is dispatched (R161). -/
theorem Dec.Inv.framing_chunk {d : Dec} (h : d.Inv) (phase : d.phase = .chunks) : d.framing = some .chunk := by
  obtain ⟨-, hp⟩ := h.resolve_left (by simp [phase])
  exact Dec.framing_eq_chunk.2 ⟨phase, ((Dec.placed_chunks phase).1 hp).1⟩

@[simp] theorem Dec.loopTest_hdrLen (d : Dec) : d.loopTest.hdrLen = d.hdrLen := by simp [Dec.hdrLen]

@[simp] theorem Dec.loopTest_noError (d : Dec) : d.loopTest.noError ↔ d.noError := by simp [Dec.noError]

@[simp] theorem Dec.loopTest_roomy (d : Dec) : d.loopTest.roomy ↔ d.roomy := by simp [Dec.roomy]

/-- The loop test puts a decoder in CHUNKS whose cursors are in range where its phase asks (R161). -/
theorem Dec.loopTest_placed {d : Dec} (phase : d.phase = .chunks) (count : d.pxCount ≤ d.n) (cursor : 14 ≤ d.inPos)
    (used : d.outPos = d.hdrLen + 3 * d.pxCount) (clean : d.noError) (room : d.roomy) : d.loopTest.Placed := by
  by_cases hlt : d.pxCount < d.n
  · rw [Dec.placed_chunks (by simp [Dec.loopTest_phase, phase, hlt])]
    simpa using ⟨hlt, cursor, used, clean, room⟩
  · have heq : d.pxCount = d.n := by omega
    rw [heq] at used
    rw [Dec.placed_endMarker (by simp [Dec.loopTest_phase, phase, hlt])]
    simpa using ⟨heq, cursor, used, clean⟩

theorem Dec.Sound.loopTest {d : Dec} (h : d.Sound) : d.loopTest.Sound := by
  unfold Dec.loopTest
  split
  · exact ⟨h.inputWf, h.outWf, h.cursor, h.count, h.used, h.coherent, h.alpha, h.alphas⟩
  · exact h

/-! ## Every move of the decoder keeps its invariant -/

/-- Raising an error of R212 meets the invariant of FAULT. -/
theorem Dec.Sound.raise_inv {d : Dec} (h : d.Sound) {k : ErrKind} {u : ErrSub} (allowed : k.allows u) :
    (d.raise k u).loopTest.Inv := by
  rw [Dec.loopTest_of_ne (by simp)]
  have hs : (d.raise k u).Sound :=
    ⟨h.inputWf, h.outWf, h.cursor, h.count, h.used, h.coherent, h.alpha, h.alphas⟩
  exact .inr ⟨hs, (Dec.placed_fault rfl).2 ⟨rfl, allowed⟩⟩

/-- The error of a fetch is a FormatError with a sub-cause. -/
theorem Dec.raiseDecode_eq_raise (x : DecodeError) (d : Dec) :
    ∃ u, ErrKind.allows .formatError u ∧ d.raiseDecode x = d.raise .formatError u := by
  cases x with
  | truncated => exact ⟨.truncated, by simp [ErrKind.allows], rfl⟩
  | badMagic => exact ⟨.badMagic, by simp [ErrKind.allows], rfl⟩
  | badEndMarker => exact ⟨.badEndMarker, by simp [ErrKind.allows], rfl⟩

theorem Dec.Sound.raiseDecode_inv {d : Dec} (h : d.Sound) (x : DecodeError) : (d.raiseDecode x).loopTest.Inv := by
  obtain ⟨u, allowed, heq⟩ := d.raiseDecode_eq_raise x
  exact heq ▸ h.raise_inv allowed

/-- The pixel a chunk makes has alpha 0 or 255 (R179). -/
theorem Dec.Sound.made_alpha {d : Dec} (h : d.Sound) {cur : Pixel} (made : d.makes cur) : cur.a = 0 ∨ cur.a = 255 := by
  obtain ha | ⟨j, rfl⟩ := made
  · exact ha ▸ h.alpha
  · exact h.alphas j

/-- Where a chunk takes at least one byte for each 62 pixels, the capacity left covers the rest (R253). -/
theorem Dec.roomy_after_chunk {d t : Dec} {n len : Nat} (h : d.roomy) (hdr : t.hdrLen = d.hdrLen) (total : t.n = d.n)
    (input : t.input = d.input) (out : t.out.len = d.out.len) (count : t.pxCount = d.pxCount + n)
    (cursor : t.inPos = d.inPos + len) (present : d.inPos + len ≤ d.input.len) (number : n ≤ 62 * len) : t.roomy := by
  unfold Dec.roomy at h ⊢
  rw [hdr, total, input, out, count, cursor]
  omega

/-- A chunk move keeps the invariant. -/
theorem Dec.Moves.inv {i : Instr} {d t : Dec} {f : Framing} (h : d.Moves i t) (hf : d.framing = some f)
    (hi : d.fetch f = .ok i) (hd : d.Inv) : t.loopTest.Inv := by
  obtain ⟨hs, hp⟩ := hd.resolve_left (Dec.ne_idle_of_framing hf)
  cases h with
  | raised k u allowed => exact hs.raise_inv allowed
  | chunk cur c n framing kind count present room cache made emits number =>
    have phase := (Dec.framing_eq_chunk.1 framing).1
    obtain ⟨-, hcur, hused, hclean, hroomy⟩ := (Dec.placed_chunks phase).1 hp
    have ha := hs.made_alpha made
    have hcache : c.coherent ∧ c.binaryAlpha := by
      obtain rfl | rfl := cache
      · exact ⟨hs.coherent, hs.alphas⟩
      · exact ⟨hs.coherent.store _, hs.alphas.store ha⟩
    have hn := number (Dec.fetch_wellFormed hi)
    have hpos := Instr.length_pos i
    have hwf := Buffer.store_wf hs.outWf (bs := cur.repeated n) (by rwa [Pixel.repeated_length])
    refine .inr ⟨Dec.Sound.loopTest ⟨hs.inputWf, hwf, present, count, room, hcache.1, ha, hcache.2⟩, ?_⟩
    refine Dec.loopTest_placed phase count (Nat.le_add_right_of_le hcur) ?_ hclean
      (Dec.roomy_after_chunk hroomy rfl rfl rfl rfl rfl rfl present (by omega))
    change d.outPos + 3 * n = d.hdrLen + 3 * (d.pxCount + n)
    omega
  | header w h ch cs instr phase present room =>
    obtain ⟨-, hcount, hout, hclean, hcap⟩ := (Dec.placed_header phase).1 hp
    rw [Dec.framing_eq_header.2 phase, Option.some.injEq] at hf
    subst hf instr
    rw [decCapacity_of_headerSize (Dec.headerSize_of_fetch hi), Buffer.window_length] at hcap
    have hzero : d.pxCount ≤ w.toNat * h.toNat := by omega
    refine .inr ⟨Dec.Sound.loopTest
      ⟨hs.inputWf, Buffer.store_wf hs.outWf room, present, hzero, room, hs.coherent, hs.alpha, hs.alphas⟩, ?_⟩
    refine Dec.loopTest_placed rfl hzero (Nat.le_refl 14) ?_ hclean ?_
    · simp [hout, hcount, Dec.hdrLen]
    · simpa [Dec.roomy, Dec.hdrLen, Dec.n, hcount] using hcap
  | marker instr framing present =>
    rw [Dec.loopTest_of_ne (by simp)]
    obtain phase | ⟨phase, hle⟩ := Dec.framing_eq_end.1 framing
    · obtain ⟨hcount, hcur, hout, hclean⟩ := (Dec.placed_endMarker phase).1 hp
      refine .inr ⟨⟨hs.inputWf, hs.outWf, present, hs.count, hs.used, hs.coherent, hs.alpha, hs.alphas⟩, ?_⟩
      exact (Dec.placed_done rfl).2 ⟨hcount, Nat.add_le_add_right hcur 8, hout, hclean⟩
    · exact absurd ((Dec.placed_chunks phase).1 hp).1 hle

/-! ## What every move does to the cursors (R47) -/

theorem Enc.Moves.cursors_le {e t : Enc} (h : e.Moves t) : e.pxPos ≤ t.pxPos ∧ e.outPos ≤ t.outPos := by
  cases h with
  | header => exact ⟨Nat.le_refl _, Nat.le_add_right _ _⟩
  | chunk => exact ⟨Nat.le_add_right _ _, Nat.le_add_right _ _⟩
  | marker => exact ⟨Nat.le_refl _, Nat.le_add_right _ _⟩

/-- While a pixel is left in PIXELS, a move consumes at least one. -/
theorem Enc.Moves.pxPos_lt {e t : Enc} (h : e.Moves t) (phase : e.phase = .pixels) (hlt : e.pxPos < e.n) :
    e.pxPos < t.pxPos := by
  cases h with
  | header header => exact nomatch phase.symm.trans header
  | chunk i c n _ _ _ _ _ number => exact Nat.lt_add_of_pos_right number.1
  | marker marker =>
    obtain marker | ⟨-, hle⟩ := marker
    · exact nomatch phase.symm.trans marker
    · exact absurd hlt hle

/-- The header sets `in_pos` to 14, which is an advance since it stood at 0. -/
theorem Dec.Moves.cursors_le {i : Instr} {d t : Dec} (h : d.Moves i t) (start : d.phase = .header → d.inPos = 0) :
    d.inPos ≤ t.inPos ∧ d.pxCount ≤ t.pxCount ∧ d.outPos ≤ t.outPos := by
  cases h with
  | raised => exact ⟨Nat.le_refl _, Nat.le_refl _, Nat.le_refl _⟩
  | chunk => exact ⟨Nat.le_add_right _ _, Nat.le_add_right _ _, Nat.le_add_right _ _⟩
  | header w h ch cs instr phase => exact ⟨start phase ▸ Nat.zero_le 14, Nat.le_refl _, Nat.le_add_right _ _⟩
  | marker => exact ⟨Nat.le_add_right _ _, Nat.le_refl _, Nat.le_refl _⟩

/-- Where a chunk is dispatched, a move faults or takes bytes and makes pixels. -/
theorem Dec.Moves.chunk_advances {i : Instr} {d t : Dec} (h : d.Moves i t) (hf : d.framing = some .chunk)
    (hw : i.wellFormed = true) : t.phase = .fault ∨ (d.inPos < t.inPos ∧ d.pxCount < t.pxCount) := by
  cases h with
  | raised => exact .inl rfl
  | chunk cur c n _ _ _ _ _ _ _ _ number =>
    exact .inr ⟨Nat.lt_add_of_pos_right (Instr.length_pos i), Nat.lt_add_of_pos_right (number hw).1⟩
  | header w h ch cs instr phase => exact nomatch phase.symm.trans (Dec.framing_eq_chunk.1 hf).1
  | marker instr framing => exact nomatch hf.symm.trans framing

theorem Dec.Inv.inPos_header {d : Dec} (h : d.Inv) (phase : d.phase = .header) : d.inPos = 0 := by
  obtain ⟨-, hp⟩ := h.resolve_left (by simp [phase])
  exact ((Dec.placed_header phase).1 hp).1

/-- The loop test does not undo a fault. -/
theorem Dec.loopTest_fault {d : Dec} (h : d.phase = .fault) : d.loopTest.phase = .fault := by
  rw [Dec.loopTest_of_ne (by simp [h]), h]

/-! ## A launch meets the invariant (R42, R253) -/

theorem Enc.atLaunch_inv (w h : Word32) (cs : Byte) {pix : List Byte} {cap : Nat}
    (hpix : pix.length = 3 * (w.toNat * h.toNat)) (hcap : encCapacity (w.toNat * h.toNat) ≤ cap) :
    (Enc.atLaunch w h cs (Buffer.ofBytes pix) cap).Inv :=
  .inr ⟨⟨Buffer.ofBytes_wf pix, Buffer.empty_wf cap, hpix, hcap, Nat.zero_le _, rfl, Cache.init_coherent,
    Cache.init_opaqueAlpha⟩, (Enc.placed_header rfl).2 ⟨rfl, rfl⟩⟩

theorem Dec.atLaunch_inv {bytes : List Byte} {cap : Nat} (hcap : decCapacity bytes ≤ cap) :
    (Dec.atLaunch (Buffer.ofBytes bytes) cap).Inv := by
  have hsound : (Dec.atLaunch (Buffer.ofBytes bytes) cap).Sound :=
    ⟨Buffer.ofBytes_wf bytes, Buffer.empty_wf cap, Nat.zero_le _, Nat.zero_le _, Nat.zero_le _, Cache.init_coherent,
      .inr rfl, Cache.init_binaryAlpha⟩
  refine .inr ⟨hsound, (Dec.placed_header rfl).2 ⟨rfl, rfl, rfl, ⟨rfl, rfl, rfl⟩, ?_⟩⟩
  exact (Buffer.window_ofBytes bytes).symm ▸ hcap

/-! ## The decoder on the bytes of an instruction -/

/-- A well-formed instruction whose bytes stand at the fetch place is fetched. -/
theorem Dec.fetch_stored {d : Dec} {i : Instr} (hw : i.wellFormed = true)
    (present : d.fetchPos i.framing + i.length ≤ d.input.len)
    (stored : ∀ k, (hk : k < (encode i).length) → Memory.read d.input.mem (d.fetchPos i.framing + k) = (encode i)[k]) :
    d.fetch i.framing = .ok i := by
  rw [← encode_length] at present
  have hfits : (encode i).length ≤ i.framing.window := encode_length i ▸ Instr.length_le_window i
  rw [Dec.fetch, Buffer.window_eq_append hfits present stored, decode_encode hw]

/-- A decoder step on a fetched instruction whose bytes are present runs its body, then the loop test. -/
theorem stepDec_of_body {s : State} {i : Instr} {d : Dec} (hf : s.dec.framing = some i.framing)
    (hi : s.dec.fetch i.framing = .ok i) (present : s.dec.fetchPos i.framing + i.length ≤ s.dec.input.len)
    (hb : Dec.body i s.dec = .next d) : stepDec s = .next ({ s with dec := d } : State).endDec := by
  rw [Dec.fetchPos_eq] at present
  rw [stepDec_of_fetch hf hi, exec_eq_dispatch, State.onDec, Dec.dispatch_of_ready hf present, hb]
  rfl

/-- The production of pixels within the capacity. -/
theorem Dec.produce_of_room {d : Dec} {cur : Pixel} {n len : Nat} (h : d.outPos + 3 * n ≤ d.out.len) :
    d.produce cur n len =
      .next
        { d with
          prev := cur, pxCount := d.pxCount + n, inPos := d.inPos + len,
          out := d.out.store d.outPos (cur.repeated n), outPos := d.outPos + 3 * n } := by
  rw [Dec.produce, Dec.emit_of_room (by rwa [Pixel.repeated_length]), Pixel.repeated_length]

/-- A byte stored in a well-formed buffer reads back. -/
theorem Buffer.read_store {b : Buffer} (hb : b.wf = true) (a : Nat) (bs : List Byte) {k : Nat} (h : k < bs.length) :
    Memory.read (b.store a bs).mem (a + k) = bs[k] :=
  Memory.read_writeBytes_same ((Buffer.wf_iff b).1 hb).1 a bs h

/-! ## The statements -/

/-- Settles O32: every move of either agent keeps its own invariant, and the other agent stays as it is. -/
theorem stepKeepsInvariant : Obligations.StepKeepsInvariant := by
  intro s t ⟨he, hd⟩ h
  obtain ⟨-, h⟩ | ⟨-, h⟩ := step_eq_next h
  · obtain ⟨e, hm, rfl⟩ := stepEnc_moves h
    exact ⟨hm.inv he, hd⟩
  · obtain ⟨f, hf, ⟨x, -, rfl⟩ | ⟨i, d, hi, hm, rfl⟩⟩ := stepDec_moves h
    · exact ⟨he, (hd.resolve_left (Dec.ne_idle_of_framing hf)).1.raiseDecode_inv x⟩
    · exact ⟨he, hm.inv hf hi hd⟩

/-- Settles O47: the encoder's chunk, fetched back from its bytes, is for the agreeing decoder the production of the
pixels the encoder consumed. -/
theorem chunkLockStep : Obligations.ChunkLockStep := by
  intro wrap e e' s he phase hstep hchunks hn hprev hcache hcount hout hroom hpresent hbytes
  have hlt := he.pixel_left phase
  obtain ⟨hs, -⟩ := he.resolve_left (by simp [phase])
  obtain ⟨i, c, n, kind, hw, -, -, color, rfl, hbody⟩ := Enc.step_pairs phase hlt hs.alpha hstep
  simp only [Nat.add_sub_cancel_left] at hroom hpresent hbytes ⊢
  have hf : s.dec.framing = some i.framing :=
    kind ▸ Dec.framing_eq_chunk.2 ⟨hchunks, by rwa [hcount, hn]⟩
  have hpos : s.dec.fetchPos i.framing = s.dec.inPos := by rw [kind, Dec.fetchPos]
  have hfetch : s.dec.fetch i.framing = .ok i := Dec.fetch_stored hw (by rwa [hpos]) fun k hk => by
    rw [hpos, hbytes k (encode_length i ▸ hk), Buffer.read_store hs.outWf]
  have hprod := (hbody s.dec hprev hcache hcount hn).trans (Dec.produce_of_room hroom)
  refine ⟨_, stepDec_of_body hf hfetch (by rwa [hpos]) hprod, ?_⟩
  simp only [State.endDec_dec, Dec.loopTest_prev, Dec.loopTest_cache, Dec.loopTest_pxCount, Dec.loopTest_inPos,
    Dec.loopTest_outPos, Dec.loopTest_out, Dec.loopTest_phase, true_and, hcount]
  refine ⟨by split <;> simp [hchunks], fun k hk => ?_⟩
  have hk' : k < (e.cur.repeated n).length := by rwa [Pixel.repeated_length]
  rw [Buffer.read_store hout _ _ hk', ← Option.some.injEq, ← List.getElem?_eq_getElem hk', Enc.repeated_reads color hk]

/-- Settles O34: the admission gives the lengths and capacities the invariant asks for, and the other agent stays. -/
theorem launchMeetsInvariant : Obligations.LaunchMeetsInvariant := by
  constructor
  · intro w h cs pix cap s t ⟨_, hd⟩ hl
    obtain ⟨-, hpix, -, hcap, rfl⟩ := State.launchEnc_eq_next.1 hl
    exact ⟨Enc.atLaunch_inv w h cs hpix hcap, hd⟩
  · intro bytes cap s t ⟨he, _⟩ hl
    obtain ⟨-, -, hcap, rfl⟩ := State.launchDec_eq_next.1 hl
    exact ⟨he, Dec.atLaunch_inv hcap⟩

/-- Settles O37: each move of the agent that steps, whose cursors the loop test leaves alone. -/
theorem cursorsAdvance : Obligations.CursorsAdvance := by
  intro s t ⟨he, hd⟩ h
  obtain ⟨hm, h⟩ | ⟨hm, h⟩ := step_eq_next h
  · obtain ⟨e, hmoves, rfl⟩ := stepEnc_moves h
    obtain ⟨hpx, hout⟩ := hmoves.cursors_le
    have hstrict (phase : s.enc.phase = .pixels) := hmoves.pxPos_lt phase (he.pixel_left phase)
    simpa [hm, hpx, hout] using hstrict
  · obtain ⟨f, hf, ⟨x, -, rfl⟩ | ⟨i, d, hi, hmoves, rfl⟩⟩ := stepDec_moves h
    · simp [hm, Dec.loopTest_fault]
    · obtain ⟨hin, hpx, hout⟩ := hmoves.cursors_le hd.inPos_header
      have hstrict (phase : s.dec.phase = .chunks) (hok : d.loopTest.phase ≠ .fault) :=
        (hmoves.chunk_advances (hd.framing_chunk phase) (Dec.fetch_wellFormed hi)).resolve_left
          fun hfault => hok (Dec.loopTest_fault hfault)
      simpa [hm, hin, hpx, hout] using hstrict

/-- Settles O31: reset is a launch of both agents with no pixels and no stream (log 1). -/
theorem resetMeetsInvariant : Obligations.ResetMeetsInvariant :=
  ⟨Enc.atLaunch_inv 0 0 0 (pix := []) rfl (Nat.le_refl 22), Dec.atLaunch_inv (bytes := []) (Nat.zero_le 29)⟩

/-- Settles O35: an admitted launch answers `Enc.atLaunch` or `Dec.atLaunch`, which is the table of R42. -/
theorem launchSetsEveryRegister : Obligations.LaunchSetsEveryRegister := by
  constructor
  · intro w h cs pix cap s t hl
    obtain ⟨-, -, -, -, rfl⟩ := State.launchEnc_eq_next.1 hl
    exact ⟨rfl, rfl, rfl⟩
  · intro bytes cap s t hl
    obtain ⟨-, -, -, rfl⟩ := State.launchDec_eq_next.1 hl
    exact ⟨rfl, rfl, rfl⟩

end Sys2Proof.Machine
end

section
/-! Proofs for the family of 20_memory: room in the outputs for every step, where a step writes, and the length of a
raster's text. -/

namespace Sys2Proof.Machine

/-! ## An encoder with the invariant completes its step (R60) -/

/-- Four bytes of room are enough for any chunk. -/
theorem Enc.emit_chunk_completes {e : Enc} {i : Instr} (kind : i.framing = .chunk)
    (room : e.outPos + 4 ≤ e.out.len) : ∃ t, e.emit (encode i) = .next t := by
  have hfour := Instr.length_le_four kind
  exact ⟨_, Enc.emit_of_room (by rw [encode_length]; omega)⟩

/-- Whatever chunk the decision takes, a chunk step within PIX and with four bytes of room completes. -/
theorem Enc.chunkStep_completes (wrap : Bool) {e : Enc} (present : 3 * e.n ≤ e.pix.len)
    (room : e.outPos + 4 ≤ e.out.len) : ∃ t, e.chunkStep wrap = .next t := by
  rw [Enc.chunkStep, if_neg (Nat.not_lt.2 present)]
  split
  · exact Enc.emit_chunk_completes rfl room
  split
  · exact Enc.emit_chunk_completes rfl room
  rw [Enc.emitByDelta]
  split
  · exact Enc.emit_chunk_completes rfl room
  split
  · exact Enc.emit_chunk_completes rfl room
  · exact Enc.emit_chunk_completes rfl room

/-- Eight bytes of room are enough for the end marker. -/
theorem Enc.emitEnd_completes {e : Enc} (room : e.outPos + 8 ≤ e.out.len) : ∃ t, e.emitEnd = .next t :=
  ⟨_, Enc.emit_of_room room⟩

/-- The capacity of the launch covers the header, four bytes for each pixel and the end marker. -/
theorem Enc.Inv.step_completes {e : Enc} (h : e.Inv) (running : e.running = true) (wrap : Bool) :
    ∃ t, e.step wrap = .next t := by
  simp only [Enc.running, Bool.and_eq_true, decide_eq_true_eq] at running
  obtain ⟨hidle, hdone⟩ := running
  obtain ⟨hs, hp⟩ := h.resolve_left hidle
  have hcap := hs.capacity
  rw [encCapacity] at hcap
  cases phase : e.phase with
  | idle => exact absurd phase hidle
  | done => exact absurd phase hdone
  | header =>
    obtain ⟨-, hout⟩ := (Enc.placed_header phase).1 hp
    have room : e.outPos + 14 ≤ e.out.len := by omega
    simp only [Enc.step, phase]
    exact ⟨_, Enc.emit_of_room room⟩
  | pixels =>
    obtain ⟨hlt, -, hout, -⟩ := (Enc.placed_pixels phase).1 hp
    simp only [Enc.step, phase, if_pos hlt]
    exact Enc.chunkStep_completes wrap (Nat.le_of_eq hs.pixLen.symm) (by omega)
  | endMarker =>
    obtain ⟨-, -, hout, -⟩ := (Enc.placed_endMarker phase).1 hp
    simp only [Enc.step, phase]
    exact Enc.emitEnd_completes (by omega)

/-! ## A decoder with the invariant completes its step (R176, R253) -/

theorem decodeRgb_framing {bs rest : List Byte} {i : Instr} (h : decodeRgb bs = .ok (i, rest)) :
    i.framing = .chunk := by
  unfold decodeRgb at h
  split at h
  · cases h; rfl
  · exact nomatch h

theorem decodeLuma_framing {b0 : Byte} {bs rest : List Byte} {i : Instr} (h : decodeLuma b0 bs = .ok (i, rest)) :
    i.framing = .chunk := by
  unfold decodeLuma at h
  split at h
  · cases h; rfl
  · exact nomatch h

/-- Every first byte gives a chunk. -/
theorem decodeChunk_framing {bs rest : List Byte} {i : Instr} (h : decodeChunk bs = .ok (i, rest)) :
    i.framing = .chunk := by
  cases bs with
  | nil => exact nomatch h
  | cons b0 bs =>
    rw [decodeChunk] at h
    split at h
    · exact decodeRgb_framing h
    split at h
    · cases h; rfl
    split at h
    · cases h; rfl
    split at h
    · cases h; rfl
    split at h
    · exact decodeLuma_framing h
    · cases h; rfl

/-- What is decoded at a place of the stream is an instruction of that place (R92). -/
theorem decode_framing {f : Framing} {bs rest : List Byte} {i : Instr} (h : decode f bs = .ok (i, rest)) :
    i.framing = f := by
  cases f with
  | header => obtain ⟨_, _, _, _, rfl⟩ := decodeHeader_eq_ok h; rfl
  | chunk => exact decodeChunk_framing h
  | endMarker => rw [decodeEnd_eq_ok h]; rfl

theorem Dec.fetch_framing {d : Dec} {f : Framing} {i : Instr} (h : d.fetch f = .ok i) : i.framing = f := by
  obtain ⟨rest, hd⟩ := Dec.fetch_eq_ok h
  exact decode_framing hd

theorem Dec.produce_completes {d : Dec} {cur : Pixel} {n len : Nat} (h : d.outPos + 3 * n ≤ d.out.len) :
    ∃ t, d.produce cur n len = .next t := ⟨_, Dec.produce_of_room h⟩

/-- While bytes of the input are left, OUT has room for any 62 pixels or fewer that are still owed. -/
theorem Dec.roomy.room {d : Dec} {n : Nat} (h : d.roomy) (used : d.outPos = d.hdrLen + 3 * d.pxCount)
    (left : d.inPos < d.input.len) (owed : d.pxCount + n ≤ d.n) (number : n ≤ 62) :
    d.outPos + 3 * n ≤ d.out.len := by
  unfold Dec.roomy at h
  omega

/-- With room for the pixels it may make, a dispatched chunk completes, by its effect or by its error. -/
theorem Dec.body_chunk_completes {d : Dec} {i : Instr} (kind : i.framing = .chunk) (hw : i.wellFormed = true)
    (owed : d.pxCount < d.n) (room : ∀ n, d.pxCount + n ≤ d.n → n ≤ 62 → d.outPos + 3 * n ≤ d.out.len) :
    ∃ t, Dec.body i d = .next t := by
  have room1 := room 1 owed (by decide)
  cases i with
  | index slot => exact Dec.produce_completes room1
  | diff dr dg db => exact Dec.produce_completes room1
  | luma dg drDg dbDg => exact Dec.produce_completes room1
  | run count =>
    rw [Dec.body]
    split
    · exact ⟨_, rfl⟩
    next hle =>
      simp only [Instr.wellFormed, Bool.and_eq_true, decide_eq_true_eq] at hw
      exact Dec.produce_completes (room count (by omega) hw.2)
  | rgb r g b => exact Dec.produce_completes room1
  | rgba => exact ⟨_, rfl⟩
  | hdr => exact nomatch kind
  | endMarker => exact nomatch kind

/-- A fetched instruction whose bytes are present completes: the launch's capacity covers what it emits. -/
theorem Dec.body_completes {d : Dec} {i : Instr} (hp : d.Placed) (hf : d.framing = some i.framing)
    (hi : d.fetch i.framing = .ok i)
    (present : (if i.framing = .header then 0 else d.inPos) + i.length ≤ d.input.len) :
    ∃ t, Dec.body i d = .next t := by
  cases kind : i.framing with
  | header =>
    rw [kind] at hf hi
    obtain ⟨rest, hdec⟩ := Dec.fetch_eq_ok hi
    obtain ⟨w, h, ch, cs, rfl⟩ := decodeHeader_eq_ok hdec
    obtain ⟨-, -, hout, -, hcap⟩ := (Dec.placed_header (Dec.framing_eq_header.1 hf)).1 hp
    rw [decCapacity_of_headerSize (Dec.headerSize_of_fetch hi)] at hcap
    have room : d.outPos + (rasterHeader w h).length ≤ d.out.len := by omega
    exact ⟨_, Dec.emit_of_room room⟩
  | chunk =>
    rw [kind] at hf
    rw [kind, if_neg (by simp)] at present
    obtain ⟨phase, owed⟩ := Dec.framing_eq_chunk.1 hf
    obtain ⟨-, -, used, -, hroomy⟩ := (Dec.placed_chunks phase).1 hp
    have hpos := Instr.length_pos i
    exact Dec.body_chunk_completes kind (Dec.fetch_wellFormed hi) owed fun n => hroomy.room used (by omega)
  | endMarker =>
    rw [kind] at hi
    obtain ⟨rest, hdec⟩ := Dec.fetch_eq_ok hi
    obtain rfl := decodeEnd_eq_ok hdec
    exact ⟨_, rfl⟩

/-- A running decoder raises an error or completes what it fetched. -/
theorem Dec.Inv.step_completes {d : Dec} (h : d.Inv) (running : d.running = true) : ∃ t, d.step = .next t := by
  cases hf : d.framing with
  | none => exact nomatch (Dec.framing_eq_none.1 hf).symm.trans running
  | some f =>
    obtain ⟨-, hp⟩ := h.resolve_left (Dec.ne_idle_of_framing hf)
    cases hi : d.fetch f with
    | error x => exact ⟨d.raiseDecode x, by simp only [Dec.step, hf, hi]⟩
    | ok i =>
      obtain rfl := Dec.fetch_framing hi
      simp only [Dec.step, hf, hi]
      rcases Nat.lt_or_ge d.input.len ((if i.framing = .header then 0 else d.inPos) + i.length) with missing | present
      · exact ⟨_, Dec.dispatch_of_missing hf missing⟩
      · rw [Dec.dispatch_of_ready hf present]
        exact Dec.body_completes hp hf hi present

/-! ## Where a step writes (R52, R59) -/

/-- `b'` is `b` with some bytes stored at the cursor `p`, and `p'` is the cursor after them: what `emit` does (R13). -/
def Buffer.Appended (b : Buffer) (p : Nat) (b' : Buffer) (p' : Nat) : Prop :=
  ∃ bs : List Byte, b' = b.store p bs ∧ p' = p + bs.length

theorem Buffer.Appended.refl (b : Buffer) (p : Nat) : b.Appended p b p := ⟨[], rfl, rfl⟩

section
variable {b b' : Buffer} {p p' : Nat}

theorem Buffer.Appended.len_eq (h : b.Appended p b' p') : b'.len = b.len := by
  obtain ⟨bs, rfl, -⟩ := h
  rfl

theorem Buffer.Appended.cursor_le (h : b.Appended p b' p') : p ≤ p' := by
  obtain ⟨bs, -, rfl⟩ := h
  exact Nat.le_add_right p bs.length

/-- Outside the old and the new cursor every byte reads as before. -/
theorem Buffer.Appended.read_outside (h : b.Appended p b' p') {a : Nat} (outside : a < p ∨ p' ≤ a) :
    Memory.read b'.mem a = Memory.read b.mem a := by
  obtain ⟨bs, rfl, rfl⟩ := h
  exact Memory.read_writeBytes_other b.mem p bs outside

end

theorem Enc.Moves.pix_eq {e t : Enc} (h : e.Moves t) : t.pix = e.pix := by
  cases h <;> rfl

theorem Enc.Moves.out_appended {e t : Enc} (h : e.Moves t) : e.out.Appended e.outPos t.out t.outPos := by
  cases h with
  | header => exact ⟨_, rfl, rfl⟩
  | chunk i => exact ⟨encode i, rfl, by rw [encode_length]⟩
  | marker => exact ⟨_, rfl, rfl⟩

theorem Dec.Moves.input_eq {i : Instr} {d t : Dec} (h : d.Moves i t) : t.input = d.input := by
  cases h <;> rfl

theorem Dec.Moves.out_appended {i : Instr} {d t : Dec} (h : d.Moves i t) :
    d.out.Appended d.outPos t.out t.outPos := by
  cases h with
  | raised => exact .refl _ _
  | chunk cur c n => exact ⟨cur.repeated n, rfl, by rw [Pixel.repeated_length]⟩
  | header w h => exact ⟨rasterHeader w h, rfl, rfl⟩
  | marker => exact .refl _ _

/-- A step changes no input, and each output by appending alone. -/
theorem step_appends {s t : State} (h : step s = .next t) :
    t.enc.pix = s.enc.pix ∧ t.dec.input = s.dec.input ∧
      s.enc.out.Appended s.enc.outPos t.enc.out t.enc.outPos ∧
      s.dec.out.Appended s.dec.outPos t.dec.out t.dec.outPos := by
  obtain ⟨-, h⟩ | ⟨-, h⟩ := step_eq_next h
  · obtain ⟨e, hm, rfl⟩ := stepEnc_moves h
    simpa using ⟨hm.pix_eq, hm.out_appended, Buffer.Appended.refl _ _⟩
  · obtain ⟨f, -, ⟨x, -, rfl⟩ | ⟨i, d, -, hm, rfl⟩⟩ := stepDec_moves h
    · simpa using ⟨Buffer.Appended.refl _ _, Buffer.Appended.refl _ _⟩
    · simpa using ⟨hm.input_eq, Buffer.Appended.refl _ _, hm.out_appended⟩

/-! ## The length of a raster's text (R55) -/

theorem decAscii_length_pos (n : Nat) : 1 ≤ (decAscii n).length :=
  List.length_pos_iff.2 (decAscii_ne_nil n)

/-- A number below ten to the `k + 1` has at most `k + 1` digits. -/
theorem decAscii_length_le {n k : Nat} (h : n < 10 ^ (k + 1)) : (decAscii n).length ≤ k + 1 := by
  induction k generalizing n with
  | zero => exact Nat.le_of_eq (congrArg List.length (decAscii_of_lt (by omega)))
  | succ k ih =>
    rcases Nat.lt_or_ge n 10 with hlt | hge
    · rw [decAscii_of_lt hlt, List.length_singleton]
      omega
    · rw [decAscii_of_ge hge, List.length_append, List.length_singleton]
      exact Nat.succ_le_succ (ih (Nat.div_lt_of_lt_mul (by rwa [← Nat.pow_succ'])))

/-- A 32-bit number has one to ten digits. -/
theorem decAscii_length_word32 (v : Word32) : 1 ≤ (decAscii v.toNat).length ∧ (decAscii v.toNat).length ≤ 10 :=
  ⟨decAscii_length_pos _, decAscii_length_le (Nat.lt_trans v.isLt (by decide))⟩

theorem rasterHeader_length (w h : Word32) :
    (rasterHeader w h).length = 9 + (decAscii w.toNat).length + (decAscii h.toNat).length := by
  simp only [rasterHeader, List.length_append, List.length_cons, List.length_nil]
  omega

/-! ## The statements -/

/-- Settles O33: the agent that moves is running, and its own invariant gives it the room it needs. -/
theorem runningStepCompletes : Obligations.RunningStepCompletes := by
  intro s ⟨he, hd⟩ hm
  obtain ⟨henc, hdec, -⟩ := s.mover_running
  cases mover : s.mover with
  | none => exact absurd mover hm
  | some agent =>
    cases agent with
    | enc =>
      obtain ⟨e, hstep⟩ := he.step_completes (henc mover) Config.deltaWrap
      exact ⟨_, by rw [step_of_mover_enc mover, stepEnc_eq, hstep, andThen_next]⟩
    | dec =>
      obtain ⟨d, hstep⟩ := hd.step_completes (hdec mover)
      exact ⟨_, by rw [step_of_mover_dec mover, stepDec_eq, hstep, andThen_next]⟩

/-- Settles O9: nine fixed bytes, and one to ten digits for each number. -/
theorem rasterHeaderLength : Obligations.RasterHeaderLength := by
  intro w h
  have hlen := rasterHeader_length w h
  have hw := decAscii_length_word32 w
  have hh := decAscii_length_word32 h
  exact ⟨hlen, by omega, by omega⟩

/-- Settles O29: each agent's step reads and writes its own registers alone, so the other finds its own as they were. -/
theorem agentStepsCommute : Obligations.AgentStepsCommute := by
  intro s a b ha hb
  rw [stepEnc_eq, andThen_eq_next] at ha
  rw [stepDec_eq, andThen_eq_next] at hb
  obtain ⟨e, he, ⟨⟩⟩ := ha
  obtain ⟨d, hd, ⟨⟩⟩ := hb
  refine ⟨{ enc := e.loopTest, dec := d.loopTest, tick := s.tick + 1 + 1 }, ?_, ?_⟩
  · rw [stepDec_eq, hd, andThen_next]
  · rw [stepEnc_eq, he, andThen_next]

/-- Settles O30: each output is only appended to. -/
theorem outputWrittenOnce : Obligations.OutputWrittenOnce := by
  intro s t h
  obtain ⟨hpix, hinput, henc, hdec⟩ := step_appends h
  exact ⟨hpix, hinput, henc.len_eq, hdec.len_eq, henc.cursor_le, hdec.cursor_le, fun _ => henc.read_outside,
    fun _ => hdec.read_outside⟩

end Sys2Proof.Machine
end

section
/-! Proofs for the family of 30_encoding: decoding and encoding undo each other, and the fields of every chunk kind by
its first byte. -/

namespace Sys2Proof.Machine

/-! ## The fields of LUMA (R83, R94) -/

/-- The high nibble of the second byte is `dr_dg`, the low one `db_dg`. -/
theorem decodeLuma_cons (b0 b1 : Byte) (rest : List Byte) :
    decodeLuma b0 (b1 :: rest) =
      .ok (.luma (unbias lumaGBias (b0.toNat % 64)) (unbias lumaRbBias (b1.toNat / 16))
        (unbias lumaRbBias (b1.toNat % 16)), rest) := by
  have hg : bits b0 5 0 = b0.toNat % 64 := by simp [bits]
  have hr : bits b1 7 4 = b1.toNat / 16 := Nat.mod_eq_of_lt (Nat.div_lt_of_lt_mul b1.isLt)
  have hb : bits b1 3 0 = b1.toNat % 16 := by simp [bits]
  rw [decodeLuma, hg, hr, hb]

/-! ## Encoding undoes decoding (R89, R93, R100) -/

/-- A number is written as the byte that is its value modulo 256. -/
theorem ofNat_eq_byte {n : Nat} {b : Byte} (h : n % 2 ^ 8 = b.toNat) : BitVec.ofNat 8 n = b :=
  BitVec.eq_of_toNat_eq ((BitVec.toNat_ofNat n 8).trans h)

/-- Putting the bias back on gives the stored field (R93). -/
theorem biased_unbias (bias : Int) (f : Nat) : biased bias (unbias bias f) = f := by
  rw [biased, unbias, Int.sub_add_cancel, Int.ofNat_eq_natCast, Int.toNat_natCast]

/-- A header field is written as the four bytes it was read from (R56). -/
theorem be32_rdBe32 (b0 b1 b2 b3 : Byte) : be32 (rdBe32 b0 b1 b2 b3) = [b0, b1, b2, b3] := by
  have h0 := b0.isLt
  have h1 := b1.isLt
  have h2 := b2.isLt
  have h3 := b3.isLt
  rw [be32, rdBe32, BitVec.toNat_ofNat, ofNat_eq_byte (b := b0) (by omega), ofNat_eq_byte (b := b1) (by omega),
    ofNat_eq_byte (b := b2) (by omega), ofNat_eq_byte (b := b3) (by omega)]

theorem encode_decode_header {bs rest : List Byte} {i : Instr} (h : decodeHeader bs = .ok (i, rest)) :
    encode i ++ rest = bs := by
  unfold decodeHeader at h
  split at h
  · split at h
    next hmagic =>
      cases h
      rw [encode, ← hmagic, be32_rdBe32, be32_rdBe32]
      rfl
    · exact nomatch h
  · exact nomatch h

theorem encode_decode_end {bs rest : List Byte} {i : Instr} (h : decodeEnd bs = .ok (i, rest)) :
    encode i ++ rest = bs := by
  unfold decodeEnd at h
  split at h
  · split at h
    next hmarker =>
      cases h
      rw [encode, ← hmarker]
      rfl
    · exact nomatch h
  · exact nomatch h

theorem encode_decode_rgb {bs rest : List Byte} {i : Instr} (h : decodeRgb bs = .ok (i, rest)) :
    encode i ++ rest = 0xFE :: bs := by
  unfold decodeRgb at h
  split at h
  · cases h; rfl
  · exact nomatch h

theorem encode_decode_luma {b0 : Byte} {bs rest : List Byte} {i : Instr} (hlo : 0x80 ≤ b0.toNat)
    (hhi : b0.toNat ≤ 0xBF) (h : decodeLuma b0 bs = .ok (i, rest)) : encode i ++ rest = b0 :: bs := by
  cases bs with
  | nil => exact nomatch h
  | cons b1 bs =>
    rw [decodeLuma_cons] at h
    cases h
    rw [encode, biased_unbias, biased_unbias, biased_unbias, ofNat_eq_byte (b := b0) (by omega),
      ofNat_eq_byte (b := b1) (by omega)]
    rfl

theorem encode_index_of_byte {b0 : Byte} (h : b0.toNat ≤ 0x3F) : encode (.index (Fin.ofNat 64 b0.toNat)) = [b0] := by
  rw [encode, Fin.val_ofNat, ofNat_eq_byte (b := b0) (by omega)]

theorem encode_diff_of_byte {b0 : Byte} (hlo : 0x40 ≤ b0.toNat) (hhi : b0.toNat ≤ 0x7F) :
    encode (.diff (unbias diffBias (b0.toNat / 16 % 4)) (unbias diffBias (b0.toNat / 4 % 4))
      (unbias diffBias (b0.toNat % 4))) = [b0] := by
  rw [encode, biased_unbias, biased_unbias, biased_unbias, ofNat_eq_byte (b := b0) (by omega)]

theorem encode_run_of_byte {b0 : Byte} (hlo : 0xC0 ≤ b0.toNat) : encode (.run (b0.toNat % 64 + 1)) = [b0] := by
  have hb0 := b0.isLt
  rw [encode, ofNat_eq_byte (b := b0) (by omega)]

/-- The first bytes of R89 in their order: 00..3F, 40..7F, 80..BF, C0..FD, FE, FF. -/
theorem firstByte_cases (b : Byte) :
    b.toNat ≤ 0x3F ∨ (0x40 ≤ b.toNat ∧ b.toNat ≤ 0x7F) ∨ (0x80 ≤ b.toNat ∧ b.toNat ≤ 0xBF) ∨
      (0xC0 ≤ b.toNat ∧ b.toNat ≤ 0xFD) ∨ b = 0xFE ∨ b = 0xFF := by
  by_cases hE : b = 0xFE
  · simp [hE]
  by_cases hF : b = 0xFF
  · simp [hF]
  have hle := toNat_le_FD hE hF
  omega

/-- The bytes of a decoded chunk are those it was read from, by its first byte. -/
theorem encode_decode_chunk {bs rest : List Byte} {i : Instr} (h : decodeChunk bs = .ok (i, rest)) :
    encode i ++ rest = bs := by
  cases bs with
  | nil => exact nomatch h
  | cons b0 bs =>
    obtain hindex | ⟨hlo, hhi⟩ | ⟨hlo, hhi⟩ | ⟨hlo, hhi⟩ | rfl | rfl := firstByte_cases b0
    · rw [decodeChunk_index hindex] at h
      cases h
      rw [encode_index_of_byte hindex, List.singleton_append]
    · rw [decodeChunk_diff hlo hhi] at h
      cases h
      rw [encode_diff_of_byte hlo hhi, List.singleton_append]
    · rw [decodeChunk_luma hlo hhi] at h
      exact encode_decode_luma hlo hhi h
    · rw [decodeChunk_run hlo hhi] at h
      cases h
      rw [encode_run_of_byte hlo, List.singleton_append]
    · exact encode_decode_rgb h
    · cases h
      rfl

/-- What decodes was read from the bytes of its encoding: no bit is dropped. -/
theorem encode_decode {f : Framing} {bs rest : List Byte} {i : Instr} (h : decode f bs = .ok (i, rest)) :
    encode i ++ rest = bs := by
  cases f with
  | header => exact encode_decode_header h
  | chunk => exact encode_decode_chunk h
  | endMarker => exact encode_decode_end h

/-! ## The statements -/

/-- Settles O1: `decode_encode`, one lemma per instruction. -/
theorem decodeInvertsEncode : Obligations.DecodeInvertsEncode :=
  fun _ rest hw => decode_encode hw rest

/-- Settles O2: a decoded instruction is of its framing, in range, and encodes to the bytes read. -/
theorem encodeInvertsDecode : Obligations.EncodeInvertsDecode :=
  fun _ _ _ _ h => ⟨decode_framing h, decode_wellFormed h, encode_decode h⟩

/-- Settles O3: one clause per range of first bytes (R89), each by the lemma of its kind. -/
theorem firstByteSelectsKind : Obligations.FirstByteSelectsKind := by
  intro b0 b1 b2 b3 rest
  refine ⟨fun h => decodeChunk_index h _, fun hlo hhi => decodeChunk_diff hlo hhi _, fun hlo hhi => ?_,
    fun hlo hhi => decodeChunk_run hlo hhi _, fun h => ?_, fun h => ?_⟩
  · exact (decodeChunk_luma hlo hhi _).trans (decodeLuma_cons b0 b1 _)
  · obtain rfl : b0 = 0xFE := BitVec.eq_of_toNat_eq h
    rfl
  · obtain rfl : b0 = 0xFF := BitVec.eq_of_toNat_eq h
    rfl

/-- Settles O4: each word is evaluated by the decoder. -/
theorem specWordsDecode : Obligations.SpecWordsDecode :=
  ⟨rfl, rfl, rfl, rfl, rfl, rfl, rfl, rfl⟩

end Sys2Proof.Machine
end

section
/-! Proofs for the family of 40_header_codec: the header units of both agents, the raster wrapper's reading, and the
round trip of a canonical raster. -/

namespace Sys2Proof.Machine

/-! ## The header steps (R110 to R116) -/

/-- Fewer than 14 bytes are no header, whatever they are (R111). -/
theorem decodeHeader_of_short {bs : List Byte} (h : bs.length < 14) : decodeHeader bs = .error .truncated := by
  unfold decodeHeader
  split
  · simp only [List.length_cons] at h
    omega
  · rfl

theorem Dec.fetch_header_of_short {d : Dec} (h : d.input.len < 14) : d.fetch .header = .error .truncated := by
  have hshort : (d.input.window 0 14).length < 14 := by rw [Buffer.window_length]; omega
  simp only [Dec.fetch, Dec.fetchPos, Framing.window, decode, decodeHeader_of_short hshort]

/-- A whole header of another magic (R112). -/
theorem Dec.fetch_header_of_badMagic {d : Dec} (hlen : 14 ≤ d.input.len)
    (h : [Memory.read d.input.mem 0, Memory.read d.input.mem 1, Memory.read d.input.mem 2,
      Memory.read d.input.mem 3] ≠ Config.magic) : d.fetch .header = .error .badMagic := by
  simp (disch := omega) only [Dec.fetch, Dec.fetchPos, Framing.window, decode, Buffer.window_cons, decodeHeader]
  rw [if_neg h]

/-- A decoder step whose fetch fails raises the error of the fetch and does nothing else (R220). -/
theorem stepDec_of_fetch_error {s : State} {f : Framing} {x : DecodeError} (hf : s.dec.framing = some f)
    (hx : s.dec.fetch f = .error x) :
    ∃ t, stepDec s = .next t ∧ t.enc = s.enc ∧ t.dec = s.dec.raiseDecode x := by
  have hstep : stepDec s = .next (s.raiseDecode x).endDec := by simp only [stepDec, hf, hx]
  exact ⟨_, hstep, rfl, Dec.loopTest_of_ne (by simp)⟩

/-- With room for the text the header latches its fields and emits it (R113, R116). -/
theorem Dec.body_hdr {w h : Word32} {d : Dec} (ch cs : Byte)
    (room : d.outPos + (rasterHeader w h).length ≤ d.out.len) :
    Dec.body (.hdr w h ch cs) d =
      .next
        { d with
          width := w, height := h, channels := ch, colorspace := cs, inPos := 14, phase := .chunks,
          out := d.out.store d.outPos (rasterHeader w h), outPos := d.outPos + (rasterHeader w h).length } :=
  Dec.emit_of_room room

/-! ## Reading a raster buffer (R118) -/

/-- Fixed text is read exactly where it stands. -/
theorem parseText_eq_some {text bs rest : List Byte} : parseText text bs = some rest ↔ bs = text ++ rest := by
  unfold parseText
  constructor
  · intro h
    split at h
    next htake => rw [← Option.some.inj h, ← List.take_append_drop text.length bs, htake]; simp
    · exact nomatch h
  · rintro rfl
    simp

theorem parseText_append (text rest : List Byte) : parseText text (text ++ rest) = some rest :=
  parseText_eq_some.2 rfl

/-- What is read as a number is its decimal text, and the number is below 2^32 (R118, D17). -/
theorem eq_append_of_parseNumber {bs rest : List Byte} {n : Nat} (h : parseNumber bs = some (n, rest)) :
    bs = decAscii n ++ rest ∧ n < 2 ^ 32 := by
  unfold parseNumber at h
  split at h
  next hcanon =>
    obtain ⟨htext, hlt⟩ := hcanon
    cases h
    rw [htext, List.takeWhile_append_dropWhile]
    exact ⟨rfl, hlt⟩
  · exact nomatch h

theorem isDigit_decAscii (n : Nat) : ∀ b ∈ decAscii n, isDigit b = true := fun b hb => by
  rw [isDigit, Bool.and_eq_true, decide_eq_true_eq, decide_eq_true_eq]
  exact decAscii_digits n b hb

/-- A decimal text is read up to the first byte that is no digit. -/
theorem parseNumber_decAscii (v : Word32) {rest : List Byte} (hend : rest.takeWhile isDigit = []) :
    parseNumber (decAscii v.toNat ++ rest) = some (v.toNat, rest) := by
  have htake : (decAscii v.toNat ++ rest).takeWhile isDigit = decAscii v.toNat := by
    rw [List.takeWhile_append_of_pos (isDigit_decAscii _), hend, List.append_nil]
  have hrest : rest.dropWhile isDigit = rest := by
    simpa [hend] using List.takeWhile_append_dropWhile (p := isDigit) (l := rest)
  have hdrop : (decAscii v.toNat ++ rest).dropWhile isDigit = rest := by
    rw [List.dropWhile_append_of_pos (isDigit_decAscii _), hrest]
  rw [parseNumber, htake, hdrop, digitsValue_decAscii, if_pos ⟨rfl, v.isLt⟩]

/-- Only a canonical raster is read: each part of it is the text of what was read there. -/
theorem eq_raster_of_parseRaster {bytes p : List Byte} {w h : Word32} (hparse : parseRaster bytes = some (w, h, p)) :
    bytes = rasterHeader w h ++ p ∧ p.length = 3 * (w.toNat * h.toNat) := by
  simp only [parseRaster, Option.bind_eq_some_iff, Prod.exists, parseText_eq_some] at hparse
  obtain ⟨r1, rfl, w', r2, hwidth, r3, rfl, h', r4, hheight, p', rfl, hlen⟩ := hparse
  obtain ⟨rfl, hw⟩ := eq_append_of_parseNumber hwidth
  obtain ⟨rfl, hh⟩ := eq_append_of_parseNumber hheight
  split at hlen
  next hcount =>
    cases hlen
    rw [rasterHeader, BitVec.toNat_ofNat, BitVec.toNat_ofNat, Nat.mod_eq_of_lt hw, Nat.mod_eq_of_lt hh]
    simpa using hcount
  · exact nomatch hlen

/-- A canonical raster is read as what it was made of. -/
theorem parseRaster_raster {w h : Word32} {p : List Byte} (hlen : p.length = 3 * (w.toNat * h.toNat)) :
    parseRaster (rasterHeader w h ++ p) = some (w, h, p) := by
  have hspace (rest : List Byte) : ([0x20] ++ rest).takeWhile isDigit = [] := rfl
  have hnewline (rest : List Byte) : ([0x0A, 0x32, 0x35, 0x35, 0x0A] ++ rest).takeWhile isDigit = [] := rfl
  simp only [parseRaster, rasterHeader, List.append_assoc, parseText_append, Option.bind_some,
    parseNumber_decAscii w (hspace _), parseNumber_decAscii h (hnewline p), if_pos hlen, BitVec.ofNat_toNat,
    BitVec.setWidth_eq]

/-! ## Runs of one agent (R131, R144, R255) -/

theorem State.runs_of_finished {s : State} (h : s.mover = none) (k : Nat) : State.runs k s = .next s := by
  cases k with
  | zero => rfl
  | succ k => rw [State.runs, h]

theorem State.runs_of_step {s t : State} (hm : s.mover ≠ none) (h : step s = .next t) (k : Nat) :
    State.runs (k + 1) s = State.runs k t := by
  obtain ⟨a, ha⟩ := Option.ne_none_iff_exists'.1 hm
  rw [State.runs, ha]
  dsimp only
  rw [h, andThen_next]

/-- The encoder's run from `e` takes `k` steps, each with its loop test, and ends in DONE as `t`. -/
inductive Enc.Finishes (wrap : Bool) : Nat → Enc → Enc → Prop
  | done {e : Enc} (phase : e.phase = .done) : Enc.Finishes wrap 0 e e
  | step {k : Nat} {e e' t : Enc} (next : e.step wrap = .next e') (rest : Enc.Finishes wrap k e'.loopTest t) :
    Enc.Finishes wrap (k + 1) e t

/-- How many steps an encoder run takes at most from here (R144). -/
def Enc.stepsLeft (e : Enc) : Nat :=
  match e.phase with
  | .idle => 0
  | .header => 2 + e.n
  | .pixels => 1 + (e.n - e.pxPos)
  | .endMarker => 1
  | .done => 0

theorem Enc.loopTest_stepsLeft_le {e : Enc} (phase : e.phase = .pixels) :
    e.loopTest.stepsLeft ≤ 1 + (e.n - e.pxPos) := by
  by_cases hlt : e.pxPos < e.n
  · simp [Enc.stepsLeft, Enc.loopTest_phase, phase, hlt]
  · simp [Enc.stepsLeft, Enc.loopTest_phase, phase, hlt]

section
variable {e t : Enc}

theorem Enc.Moves.stepsLeft_lt (h : e.Moves t) : t.loopTest.stepsLeft < e.stepsLeft := by
  cases h with
  | header phase =>
    refine Nat.lt_of_le_of_lt (Enc.loopTest_stepsLeft_le rfl) ?_
    simp only [Enc.stepsLeft, phase, Enc.n]
    omega
  | chunk i c n phase _ _ _ _ number count =>
    refine Nat.lt_of_le_of_lt (Enc.loopTest_stepsLeft_le phase) ?_
    simp only [Enc.stepsLeft, phase, Enc.n] at count ⊢
    omega
  | marker phase =>
    rw [Enc.loopTest_of_ne (by simp)]
    obtain phase | ⟨phase, -⟩ := phase
    · simp only [Enc.stepsLeft, phase]
      omega
    · simp only [Enc.stepsLeft, phase]
      omega

theorem Enc.Moves.running (h : e.Moves t) : e.running = true := by
  cases h with
  | header phase => simp [Enc.running, phase]
  | chunk i c n phase => simp [Enc.running, phase]
  | marker phase => obtain phase | ⟨phase, -⟩ := phase <;> simp [Enc.running, phase]

theorem Enc.Moves.loopTest_ne_idle (h : e.Moves t) : t.loopTest.phase ≠ .idle := by
  have hne : t.phase ≠ .idle := by
    cases h with
    | header => simp
    | chunk i c n phase => simp [phase]
    | marker => simp
  rw [Enc.loopTest_phase]
  split
  · simp
  · exact hne

theorem Enc.Moves.eq_of_header (h : e.Moves t) (phase : e.phase = .header) :
    t =
      { e with
        phase := .pixels, out := e.out.store e.outPos (encode (.hdr e.width e.height 3 e.colorspace)),
        outPos := e.outPos + 14 } := by
  cases h with
  | header => rfl
  | chunk i c n phase' => exact nomatch phase.symm.trans phase'
  | marker phase' => obtain phase' | ⟨phase', -⟩ := phase' <;> exact nomatch phase.symm.trans phase'

theorem Enc.Moves.eq_of_endMarker (h : e.Moves t) (phase : e.phase = .endMarker) :
    t = { e with phase := .done, out := e.out.store e.outPos (encode .endMarker), outPos := e.outPos + 8 } := by
  cases h with
  | header phase' => exact nomatch phase.symm.trans phase'
  | chunk i c n phase' => exact nomatch phase.symm.trans phase'
  | marker => rfl

/-- Every step emits at least one byte. -/
theorem Enc.Moves.outPos_lt (h : e.Moves t) : e.outPos < t.outPos := by
  cases h with
  | header => exact Nat.lt_add_of_pos_right (by decide)
  | chunk i => exact Nat.lt_add_of_pos_right (Instr.length_pos i)
  | marker => exact Nat.lt_add_of_pos_right (by decide)

theorem Enc.Moves.size_eq (h : e.Moves t) : t.width = e.width ∧ t.height = e.height := by
  cases h <;> exact ⟨rfl, rfl⟩

end

/-- Every encoder run with the invariant ends, within the steps it has left (R144). -/
theorem Enc.Inv.finishes (wrap : Bool) {e : Enc} (he : e.Inv) (hidle : e.phase ≠ .idle) :
    ∃ k t, Enc.Finishes wrap k e t ∧ k ≤ e.stepsLeft := by
  induction hleft : e.stepsLeft using Nat.strongRecOn generalizing e with
  | ind m ih =>
    by_cases hdone : e.phase = .done
    · exact ⟨0, e, .done hdone, Nat.zero_le m⟩
    · have running : e.running = true := by simp [Enc.running, hidle, hdone]
      obtain ⟨e', next⟩ := he.step_completes running wrap
      have hm := Enc.step_moves next
      have hlt := hleft ▸ hm.stepsLeft_lt
      obtain ⟨k, t, rest, hk⟩ := ih _ hlt (hm.inv he) hm.loopTest_ne_idle rfl
      exact ⟨k + 1, t, .step next rest, by omega⟩

section
variable {wrap : Bool} {k : Nat} {e t : Enc}

theorem Enc.Finishes.ends (run : Enc.Finishes wrap k e t) (he : e.Inv) : t.phase = .done ∧ t.Inv := by
  induction run with
  | done phase => exact ⟨phase, he⟩
  | step next rest ih => exact ih ((Enc.step_moves next).inv he)

/-- A run takes at most one step for each byte it emits. -/
theorem Enc.Finishes.steps_le (run : Enc.Finishes wrap k e t) : e.outPos + k ≤ t.outPos := by
  induction run with
  | done => exact Nat.le_refl _
  | step next rest ih =>
    have hlt := (Enc.step_moves next).outPos_lt
    rw [Enc.loopTest_outPos] at ih
    omega

/-- With the decoder at rest the machine's run is the encoder's. -/
theorem Enc.Finishes.runs {s : State} {fuel : Nat} (run : Enc.Finishes Config.deltaWrap k s.enc t)
    (hd : s.dec.running = false) (hk : k ≤ fuel) : ∃ u, State.runs fuel s = .next u ∧ u.enc = t := by
  generalize he : s.enc = e at run
  induction run generalizing s fuel with
  | done phase =>
    have hrest : s.mover = none := s.mover_running.2.2.2 ⟨by simp [Enc.running, he, phase], hd⟩
    exact ⟨s, State.runs_of_finished hrest fuel, he⟩
  | step next rest ih =>
    subst he
    obtain ⟨fuel, rfl⟩ : ∃ j, fuel = j + 1 := ⟨fuel - 1, by omega⟩
    have hm := State.mover_enc (Enc.step_moves next).running hd
    have hstep := step_of_mover_enc hm
    rw [stepEnc_eq, next, andThen_next] at hstep
    rw [State.runs_of_step (by simp [hm]) hstep]
    exact ih hd (by omega) rfl

end

/-! ## The decoder on the encoder's stream (R46, R178) -/

/-- The decoder's input begins with the bytes the encoder has put out. -/
def Dec.Receives (d : Dec) (e : Enc) : Prop :=
  e.outPos ≤ d.input.len ∧ ∀ k, k < e.outPos → Memory.read d.input.mem k = Memory.read e.out.mem k

/-- What an encoder has put out it had put out in part before. -/
theorem Dec.Receives.before {d : Dec} {e t : Enc} (h : d.Receives t) (hm : e.Moves t) : d.Receives e := by
  obtain ⟨hlen, hread⟩ := h
  have hlt := hm.outPos_lt
  exact ⟨by omega, fun k hk => by rw [hread k (by omega), hm.out_appended.read_outside (.inl hk)]⟩

theorem Dec.receives_loopTest {d : Dec} {e : Enc} : d.Receives e.loopTest ↔ d.Receives e := by
  simp [Dec.Receives]

theorem Enc.Finishes.receives {wrap : Bool} {k : Nat} {e t : Enc} (run : Enc.Finishes wrap k e t) {d : Dec}
    (h : d.Receives t) : d.Receives e := by
  induction run with
  | done => exact h
  | step next rest ih => exact (Dec.receives_loopTest.1 (ih h)).before (Enc.step_moves next)

/-- The instruction whose bytes the encoder stored last is fetched where the decoder stands at their place. -/
theorem Dec.Receives.fetch {d : Dec} {e t : Enc} {i : Instr} (h : d.Receives t) (hwf : e.out.wf = true)
    (hout : t.out = e.out.store e.outPos (encode i)) (hpos : t.outPos = e.outPos + i.length)
    (hw : i.wellFormed = true) (hat : d.fetchPos i.framing = e.outPos) :
    d.fetch i.framing = .ok i ∧ d.fetchPos i.framing + i.length ≤ d.input.len := by
  obtain ⟨hlen, hread⟩ := h
  have present : d.fetchPos i.framing + i.length ≤ d.input.len := by omega
  refine ⟨Dec.fetch_stored hw present fun k hk => ?_, present⟩
  have hk' := encode_length i ▸ hk
  rw [hat, hread _ (by omega), hout, Buffer.read_store hwf _ _ hk]

/-- The decoder's phase while it follows an encoder in this one. -/
def EncPhase.mirror : EncPhase → DecPhase
  | .idle => .idle
  | .header => .header
  | .pixels => .chunks
  | .endMarker => .endMarker
  | .done => .done

/-- The first `p` bytes of a buffer are the beginning of a text. -/
def Buffer.Begins (b : Buffer) (p : Nat) (text : List Byte) : Prop :=
  ∀ k, k < p → text[k]? = some (Memory.read b.mem k)

/-- Storing the bytes that come next in the text. -/
theorem Buffer.Begins.store {b : Buffer} {p : Nat} {text bs : List Byte} (h : b.Begins p text) (hwf : b.wf = true)
    (hnext : ∀ j, (hj : j < bs.length) → text[p + j]? = some bs[j]) :
    (b.store p bs).Begins (p + bs.length) text := by
  intro k hk
  rcases Nat.lt_or_ge k p with hlt | hge
  · rw [Buffer.store_mem, Memory.read_writeBytes_other _ _ _ (.inl hlt), h k hlt]
  · obtain ⟨j, rfl⟩ := Nat.exists_eq_add_of_le hge
    have hj : j < bs.length := by omega
    rw [Buffer.read_store hwf p bs hj, hnext j hj]

theorem Buffer.Begins.window_eq {b : Buffer} {text : List Byte} (h : b.Begins text.length text)
    (hlen : text.length ≤ b.len) : b.window 0 text.length = text := by
  have hread (k : Nat) (hk : k < text.length) : Memory.read b.mem (0 + k) = text[k] := by
    rw [← Option.some.injEq, Nat.zero_add, ← h k hk, List.getElem?_eq_getElem hk]
  simpa [Buffer.window] using Buffer.window_eq_append (Nat.le_refl _) (by omega) hread

/-- The raster buffer an encoder's inputs stand for (R55, R118). -/
def Enc.raster (e : Enc) : List Byte := rasterHeader e.width e.height ++ e.pix.window 0 e.pix.len

/-- The decoder has taken the bytes the encoder has put out: it agrees with it on all they share (R46, R178), and its
output is the beginning of the encoder's raster. -/
structure Dec.Follows (d : Dec) (e : Enc) : Prop where
  phase : d.phase = e.phase.mirror
  size : e.phase ≠ .header → d.width = e.width ∧ d.height = e.height
  prev : d.prev = e.prev
  cache : d.cache = e.cache
  count : d.pxCount = e.pxPos
  cursor : d.inPos = e.outPos
  output : d.out.Begins d.outPos e.raster

theorem Enc.raster_loopTest (e : Enc) : e.loopTest.raster = e.raster := by simp [Enc.raster]

theorem Enc.Moves.raster_eq {e t : Enc} (h : e.Moves t) : t.raster = e.raster := by
  obtain ⟨hw, hh⟩ := h.size_eq
  rw [Enc.raster, Enc.raster, hw, hh, h.pix_eq]

theorem Enc.Sound.raster_length {e : Enc} (h : e.Sound) :
    e.raster.length = (rasterHeader e.width e.height).length + 3 * e.n := by
  rw [Enc.raster, List.length_append, Buffer.window_length, h.pixLen]
  simp

theorem Enc.raster_header {e : Enc} {k : Nat} (hk : k < (rasterHeader e.width e.height).length) :
    e.raster[k]? = some (rasterHeader e.width e.height)[k] := by
  rw [Enc.raster, List.getElem?_append_left hk, List.getElem?_eq_getElem hk]

theorem Enc.raster_pixel {e : Enc} {k : Nat} (hk : k < e.pix.len) :
    e.raster[(rasterHeader e.width e.height).length + k]? = some (Memory.read e.pix.mem k) := by
  have hk' : k < (e.pix.window 0 e.pix.len).length := by rw [Buffer.window_length]; omega
  rw [Enc.raster, List.getElem?_append_right (Nat.le_add_right _ _), Nat.add_sub_cancel_left,
    List.getElem?_eq_getElem hk', Buffer.window_getElem, Nat.zero_add]

section
variable {d : Dec} {e : Enc}

theorem Dec.Follows.n_eq (h : d.Follows e) (phase : e.phase ≠ .header) : d.n = e.n := by
  obtain ⟨hw, hh⟩ := h.size phase
  rw [Dec.n, Enc.n, hw, hh]

theorem Dec.Follows.running_eq (h : d.Follows e) : d.running = e.running := by
  rw [Dec.running, Enc.running, h.phase]
  cases e.phase <;> rfl

/-- The loop tests of both agents end the pixels together (R131, R161). -/
theorem Dec.Follows.loopTest (h : d.Follows e) : d.loopTest.Follows e.loopTest := by
  have phase : d.loopTest.phase = e.loopTest.phase.mirror := by
    rw [Dec.loopTest_phase, Enc.loopTest_phase, h.phase, h.count]
    cases hp : e.phase with
    | pixels =>
      rw [h.n_eq (by simp [hp])]
      by_cases hlt : e.pxPos < e.n <;> simp [EncPhase.mirror, hlt]
    | _ => simp [EncPhase.mirror]
  have size : e.loopTest.phase ≠ .header → d.width = e.width ∧ d.height = e.height := fun hne =>
    h.size fun hp => hne (by rw [Enc.loopTest_of_ne (by simp [hp]), hp])
  exact ⟨phase, by simpa using size, by simpa using h.prev, by simpa using h.cache, by simpa using h.count,
    by simpa using h.cursor, by simpa [Enc.raster_loopTest] using h.output⟩

end

/-- At a launch the decoder agrees with the encoder, and nothing is put out. -/
theorem Dec.follows_atLaunch (w h : Word32) (cs : Byte) (pix input : Buffer) (cap cap' : Nat) :
    (Dec.atLaunch input cap').Follows (Enc.atLaunch w h cs pix cap) :=
  ⟨rfl, fun hne => absurd rfl hne, rfl, rfl, rfl, rfl, fun _ hk => absurd hk (Nat.not_lt_zero _)⟩

/-- The header the encoder emitted first is fetched by a decoder in HEADER (R110, R113). -/
theorem Dec.Receives.fetch_header {d : Dec} {e t : Enc} (h : d.Receives t) (hm : e.Moves t) (he : e.Inv)
    (phase : e.phase = .header) :
    d.fetch .header = .ok (.hdr e.width e.height 3 e.colorspace) ∧ 14 ≤ d.input.len := by
  obtain ⟨hs, hp⟩ := he.resolve_left (by simp [phase])
  obtain ⟨-, hout⟩ := (Enc.placed_header phase).1 hp
  obtain rfl := hm.eq_of_header phase
  have hfetch := h.fetch (i := .hdr e.width e.height 3 e.colorspace) hs.outWf rfl rfl rfl hout.symm
  simpa [Dec.fetchPos, Instr.framing, Instr.length] using hfetch

section
variable {wrap : Bool} {s : State} {e e' : Enc} (h : s.dec.Follows e) (he : e.Inv) (hd : s.dec.Inv)
  (next : e.step wrap = .next e') (received : s.dec.Receives e')
include h he next received

/-- The end marker step: the run ends, and nothing more is put out (R142, R172). -/
theorem Dec.Follows.marker_step (phase : e.phase = .endMarker) :
    ∃ d, stepDec s = .next ({ s with dec := d } : State).endDec ∧ d.Follows e' := by
  have hphase : s.dec.phase = .endMarker := by rw [h.phase, phase]; rfl
  obtain ⟨hs, -⟩ := he.resolve_left (by simp [phase])
  obtain rfl := (Enc.step_moves next).eq_of_endMarker phase
  obtain ⟨hfetch, present⟩ := received.fetch (i := .endMarker) hs.outWf rfl rfl rfl h.cursor
  refine ⟨_, stepDec_of_body (i := .endMarker) (Dec.framing_eq_end.2 (.inl hphase)) hfetch present rfl, ?_⟩
  exact ⟨rfl, fun _ => h.size (by simp [phase]), h.prev, h.cache, h.count, congrArg (· + 8) h.cursor, h.output⟩

include hd

/-- The header step: the text of the raster is put out (R116). -/
theorem Dec.Follows.header_step (phase : e.phase = .header) :
    ∃ d, stepDec s = .next ({ s with dec := d } : State).endDec ∧ d.Follows e' := by
  have hphase : s.dec.phase = .header := by rw [h.phase, phase]; rfl
  obtain ⟨hs, hp⟩ := hd.resolve_left (by simp [hphase])
  obtain ⟨hin, -, hout, -, hcap⟩ := (Dec.placed_header hphase).1 hp
  have hm := Enc.step_moves next
  obtain ⟨hfetch, present⟩ := received.fetch_header hm he phase
  rw [decCapacity_of_headerSize (Dec.headerSize_of_fetch hfetch)] at hcap
  have room : s.dec.outPos + (rasterHeader e.width e.height).length ≤ s.dec.out.len := by omega
  refine ⟨_, stepDec_of_body (i := .hdr e.width e.height 3 e.colorspace) (Dec.framing_eq_header.2 hphase) hfetch
    (by simpa [Dec.fetchPos, Instr.framing, Instr.length] using present) (Dec.body_hdr _ _ room), ?_⟩
  have hcursor : 14 = e.outPos + 14 := by rw [← h.cursor, hin]
  obtain rfl := hm.eq_of_header phase
  refine ⟨rfl, fun _ => ⟨rfl, rfl⟩, h.prev, h.cache, h.count, hcursor, h.output.store hs.outWf fun j hj => ?_⟩
  rw [hout, Nat.zero_add]
  exact Enc.raster_header hj

/-- A chunk step: the pixels the encoder consumed are put out (R178). -/
theorem Dec.Follows.chunk_step (phase : e.phase = .pixels) :
    ∃ d, stepDec s = .next ({ s with dec := d } : State).endDec ∧ d.Follows e' := by
  have hphase : s.dec.phase = .chunks := by rw [h.phase, phase]; rfl
  obtain ⟨hs, hp⟩ := hd.resolve_left (by simp [hphase])
  obtain ⟨-, -, used, -, hroomy⟩ := (Dec.placed_chunks hphase).1 hp
  obtain ⟨hes, -⟩ := he.resolve_left (by simp [phase])
  have hn := h.n_eq (by simp [phase])
  have hlt := he.pixel_left phase
  obtain ⟨i, c, n, kind, hwf, number, count, color, rfl, hbody⟩ := Enc.step_pairs phase hlt hes.alpha next
  have hat : s.dec.fetchPos i.framing = e.outPos := by rw [kind, Dec.fetchPos, h.cursor]
  obtain ⟨hfetch, present⟩ := received.fetch hes.outWf rfl rfl hwf hat
  have hf : s.dec.framing = some i.framing := kind ▸ Dec.framing_eq_chunk.2 ⟨hphase, by rwa [h.count, hn]⟩
  have room : s.dec.outPos + 3 * n ≤ s.dec.out.len := by
    have hpos := Instr.length_pos i
    exact hroomy.room used (by rw [h.cursor]; omega) (by rwa [h.count, hn]) number.2
  have hproduce := (hbody s.dec h.prev h.cache h.count hn).trans (Dec.produce_of_room room)
  refine ⟨_, stepDec_of_body hf hfetch present hproduce, h.phase, h.size, rfl, rfl, congrArg (· + n) h.count,
    congrArg (· + i.length) h.cursor, ?_⟩
  have hpixels (j : Nat) (hj : j < (e.cur.repeated n).length) :
      e.raster[s.dec.outPos + j]? = some (e.cur.repeated n)[j] := by
    have hj3 : j < 3 * n := by rwa [Pixel.repeated_length] at hj
    obtain ⟨hw, hh⟩ := h.size (by simp [phase])
    rw [← List.getElem?_eq_getElem hj, Enc.repeated_reads color hj3,
      ← Enc.raster_pixel (by rw [hes.pixLen]; omega), used, h.count, Dec.hdrLen, hw, hh, Nat.add_assoc]
  have houtput := h.output.store hs.outWf hpixels
  rwa [Pixel.repeated_length] at houtput

/-- Whatever step the encoder takes, the decoder follows it (R178). -/
theorem Dec.Follows.step :
    ∃ d, stepDec s = .next ({ s with dec := d } : State).endDec ∧ d.Follows e' := by
  have hm := Enc.step_moves next
  cases phase : e.phase with
  | idle => exact absurd phase hm.ne_idle
  | header => exact h.header_step he hd next received phase
  | pixels => exact h.chunk_step he hd next received phase
  | endMarker => exact h.marker_step he next received phase
  | done => exact absurd hm.running (by simp [Enc.running, phase])

end

/-- A decoder that has followed an encoder to DONE holds the whole raster. -/
theorem Dec.Follows.window_eq {d : Dec} {e : Enc} (h : d.Follows e) (he : e.Inv) (hd : d.Inv)
    (phase : e.phase = .done) :
    d.phase = .done ∧ d.out.window 0 d.outPos = e.raster := by
  have hphase : d.phase = .done := by rw [h.phase, phase]; rfl
  obtain ⟨hes, -⟩ := he.resolve_left (by simp [phase])
  obtain ⟨hs, hp⟩ := hd.resolve_left (by simp [hphase])
  obtain ⟨-, -, hout, -⟩ := (Dec.placed_done hphase).1 hp
  obtain ⟨hw, hh⟩ := h.size (by simp [phase])
  have hlen : d.outPos = e.raster.length := by
    rw [hout, hes.raster_length, h.n_eq (by simp [phase]), Dec.hdrLen, hw, hh]
  have hused := hs.used
  have houtput := h.output
  rw [hlen] at hused houtput ⊢
  exact ⟨hphase, houtput.window_eq hused⟩

/-- With the encoder at rest, a decoder that follows an encoder's run and receives its stream puts out its raster. -/
theorem Enc.Finishes.decoded {wrap : Bool} {k fuel : Nat} {e t : Enc} {s : State} (run : Enc.Finishes wrap k e t)
    (he : e.Inv) (hs : s.Inv) (hrest : s.enc.running = false) (h : s.dec.Follows e) (received : s.dec.Receives t)
    (hk : k ≤ fuel) :
    ∃ u, State.runs fuel s = .next u ∧ u.dec.phase = .done ∧ u.dec.out.window 0 u.dec.outPos = e.raster := by
  induction run generalizing s fuel with
  | done phase =>
    have hd : s.dec.running = false := by rw [h.running_eq]; simp [Enc.running, phase]
    exact ⟨s, State.runs_of_finished (s.mover_running.2.2.2 ⟨hrest, hd⟩) fuel, h.window_eq he hs.2 phase⟩
  | step next rest ih =>
    obtain ⟨fuel, rfl⟩ : ∃ j, fuel = j + 1 := ⟨fuel - 1, by omega⟩
    have hm := Enc.step_moves next
    have hmover := State.mover_dec hrest (h.running_eq.trans hm.running)
    obtain ⟨d, hstep, hd⟩ := h.step he hs.2 next (Dec.receives_loopTest.1 (rest.receives received))
    rw [← step_of_mover_dec hmover] at hstep
    have hinput : d.loopTest.input = s.dec.input := (step_appends hstep).2.1
    rw [State.runs_of_step (by simp [hmover]) hstep, ← hm.raster_eq, ← Enc.raster_loopTest]
    refine ih (hm.inv he) (stepKeepsInvariant s _ hs hstep) hrest hd.loopTest ?_ (by omega)
    rw [State.endDec_dec, Dec.Receives, hinput]
    exact received

/-! ## The round trip (R118 to R120) -/

/-- The stream an encoder puts out by DONE is received by a decoder launched on it. -/
theorem Enc.Inv.receives_result {t : Enc} (ht : t.Inv) (phase : t.phase = .done) (cap : Nat) :
    (t.out.window 0 t.outPos).length = t.outPos ∧
      (Dec.atLaunch (Buffer.ofBytes (t.out.window 0 t.outPos)) cap).Receives t := by
  obtain ⟨hs, hp⟩ := ht.resolve_left (by simp [phase])
  obtain ⟨-, -, hout, -⟩ := (Enc.placed_done phase).1 hp
  have hcap := hs.capacity
  rw [encCapacity] at hcap
  have hlen : (t.out.window 0 t.outPos).length = t.outPos := by rw [Buffer.window_length]; omega
  refine ⟨hlen, Nat.le_of_eq hlen.symm, fun k hk => ?_⟩
  have hk' : k < (t.out.window 0 t.outPos).length := by rwa [hlen]
  exact (Buffer.read_ofBytes _ hk').trans (by rw [Buffer.window_getElem, Nat.zero_add])

/-- The size that stands in the stream of an encoder's run is the encoder's (R110, R253). -/
theorem Enc.Finishes.headerSize_eq {wrap : Bool} {k : Nat} {e t : Enc} {stream : List Byte} {cap : Nat}
    (run : Enc.Finishes wrap k e t) (he : e.Inv) (phase : e.phase = .header)
    (received : (Dec.atLaunch (Buffer.ofBytes stream) cap).Receives t) :
    headerSize stream = some (e.width, e.height) := by
  cases run with
  | done hdone => exact nomatch phase.symm.trans hdone
  | step next rest =>
    have hfirst := Dec.receives_loopTest.1 (rest.receives received)
    obtain ⟨hfetch, -⟩ := hfirst.fetch_header (Enc.step_moves next) he phase
    have hsize := Dec.headerSize_of_fetch hfetch
    rwa [Dec.atLaunch, Buffer.ofBytes_len, Buffer.window_ofBytes] at hsize

/-- What the launch reads from a stream's header: the pixel count, and a capacity that the host's always covers. -/
theorem launch_of_headerSize {stream : List Byte} {w h : Word32} (hsize : headerSize stream = some (w, h)) :
    announcedPixels stream = w.toNat * h.toNat ∧ decCapacity stream ≤ 29 + 186 * (stream.length - 14) := by
  obtain ⟨-, -, htext⟩ := rasterHeaderLength w h
  rw [decCapacity_of_headerSize hsize, announcedPixels, hsize]
  exact ⟨rfl, by omega⟩

/-- `encode_raster` answers what an encoder run that ends in DONE has put out (R118). -/
theorem encodeRaster_of_run {cs : Byte} {w h : Word32} {p : List Byte} {s u : State}
    (hlen : p.length = 3 * (w.toNat * h.toNat))
    (hlaunch : State.idle.launchEnc w h cs p (encCapacity (w.toNat * h.toNat)) = .next s)
    (hruns : State.runs (2 + w.toNat * h.toNat) s = .next u) (hdone : u.enc.phase = .done) :
    encodeRaster cs (rasterHeader w h ++ p) = .next (u.enc.out.window 0 u.enc.outPos) := by
  simp only [encodeRaster, parseRaster_raster hlen, hlaunch, hruns, andThen_next, Enc.result_of_done hdone]

/-- `decode_to_raster` answers what a decoder run that ends in DONE has put out (R119). -/
theorem decodeToRaster_of_run {stream : List Byte} {s u : State}
    (hlaunch : State.idle.launchDec stream (29 + 186 * (stream.length - 14)) = .next s)
    (hruns : State.runs (2 + stream.length) s = .next u) (hdone : u.dec.phase = .done) :
    decodeToRaster stream = .next (.ok (u.dec.out.window 0 u.dec.outPos)) := by
  simp only [decodeToRaster, hlaunch, hruns, andThen_next, Dec.result_of_done hdone]

/-- Encoding an admitted raster runs the encoder from its launch to DONE and answers what it has put out. -/
theorem encodeRaster_finishes (cs : Byte) {w h : Word32} {p : List Byte} (hlen : p.length = 3 * (w.toNat * h.toNat))
    (hadmit : admitsPixels Config.maxPixels (w.toNat * h.toNat) = true) :
    ∃ k t,
      Enc.Finishes Config.deltaWrap k
        (Enc.atLaunch w h cs (Buffer.ofBytes p) (encCapacity (w.toNat * h.toNat))) t ∧
      encodeRaster cs (rasterHeader w h ++ p) = .next (t.out.window 0 t.outPos) := by
  have he := Enc.atLaunch_inv w h cs hlen (Nat.le_refl _)
  have hlaunch := (State.launchEnc_eq_next (cs := cs) (s := State.idle)).2 ⟨rfl, hlen, hadmit, Nat.le_refl _, rfl⟩
  obtain ⟨k, t, run, hk⟩ := he.finishes Config.deltaWrap (by simp [Enc.atLaunch])
  obtain ⟨u, hruns, rfl⟩ := run.runs (s := { State.idle with enc := _ }) rfl hk
  exact ⟨k, u.enc, run, encodeRaster_of_run hlen hlaunch hruns (run.ends he).1⟩

/-- Decoding the stream of an encoder's run gives the raster of its inputs. -/
theorem Enc.Finishes.decodeToRaster_eq {wrap : Bool} {k cap : Nat} {w h : Word32} {cs : Byte} {pix : Buffer} {t : Enc}
    (run : Enc.Finishes wrap k (Enc.atLaunch w h cs pix cap) t) (he : (Enc.atLaunch w h cs pix cap).Inv)
    (hadmit : admitsPixels Config.maxPixels (w.toNat * h.toNat) = true) :
    decodeToRaster (t.out.window 0 t.outPos) = .next (.ok (Enc.atLaunch w h cs pix cap).raster) := by
  obtain ⟨hdone, ht⟩ := run.ends he
  obtain ⟨hlen, received⟩ := ht.receives_result hdone (29 + 186 * ((t.out.window 0 t.outPos).length - 14))
  obtain ⟨hcount, hcap⟩ := launch_of_headerSize (run.headerSize_eq he rfl received)
  have hlaunch := (State.launchDec_eq_next (s := State.idle)).2 ⟨rfl, hcount ▸ hadmit, hcap, rfl⟩
  have hsteps := run.steps_le
  obtain ⟨u, hruns, hphase, hout⟩ :=
    run.decoded (s := { State.idle with dec := _ }) (fuel := 2 + (t.out.window 0 t.outPos).length) he
      ⟨.inl rfl, Dec.atLaunch_inv hcap⟩ rfl (Dec.follows_atLaunch w h cs pix _ cap _) received (by omega)
  exact hout ▸ decodeToRaster_of_run hlaunch hruns hphase

/-! ## The statements -/

/-- Settles O49: the encoder's run ends, and the decoder follows it step by step along its stream. -/
theorem rasterRoundTrip : Obligations.RasterRoundTrip := by
  intro cs w h p hlen hadmit
  obtain ⟨k, t, run, hencode⟩ := encodeRaster_finishes cs hlen hadmit
  have hdecode := run.decodeToRaster_eq (Enc.atLaunch_inv w h cs hlen (Nat.le_refl _)) hadmit
  rw [Enc.raster, Enc.atLaunch, Buffer.ofBytes_len, Buffer.window_ofBytes] at hdecode
  exact ⟨_, hencode, hdecode⟩

/-- Settles O48: the wrapper reads a canonical raster, and reads nothing else. -/
theorem canonicalRasterIsRead : Obligations.CanonicalRasterIsRead := by
  intro bytes w h p
  refine ⟨eq_raster_of_parseRaster, ?_⟩
  rintro ⟨rfl, hlen⟩
  exact parseRaster_raster hlen

/-- Settles O16: the magic stands, so the fields are read; and the body of HDR emits the text within the capacity. -/
theorem headerUnit : Obligations.HeaderUnit := by
  refine ⟨fun w0 w1 w2 w3 h0 h1 h2 h3 ch cs rest => rfl, fun s w h ch cs text phase present htext room => ?_⟩
  obtain rfl : text = rasterHeader w h := htext
  have hf : s.dec.framing = some (Instr.framing (.hdr w h ch cs)) := Dec.framing_eq_header.2 phase
  have hpresent : (if Instr.framing (.hdr w h ch cs) = .header then 0 else s.dec.inPos) +
      Instr.length (.hdr w h ch cs) ≤ s.dec.input.len := by
    rwa [Instr.framing, if_pos rfl, Nat.zero_add]
  refine ⟨_, ?_, rfl, rfl⟩
  rw [exec_eq_dispatch, State.onDec, Dec.dispatch_of_ready hf hpresent, Dec.body_hdr ch cs room, andThen_next]

/-- Settles O23: the fetch of the header gives the error, and the step raises it with `err_pos` the cursor, 0. -/
theorem headerFaults : Obligations.HeaderFaults := by
  intro s hm phase hpos
  have hf := Dec.framing_eq_header.2 phase
  rw [step_of_mover_dec hm]
  constructor
  · intro hlen
    obtain ⟨t, hstep, henc, hdec⟩ := stepDec_of_fetch_error hf (Dec.fetch_header_of_short hlen)
    exact ⟨t, hstep, henc, by rw [hdec, ← hpos]; rfl⟩
  · intro hlen hmagic
    have hne : [Memory.read s.dec.input.mem 0, Memory.read s.dec.input.mem 1, Memory.read s.dec.input.mem 2,
        Memory.read s.dec.input.mem 3] ≠ Config.magic := by
      simpa [Config.magic] using hmagic
    obtain ⟨t, hstep, henc, hdec⟩ := stepDec_of_fetch_error hf (Dec.fetch_header_of_badMagic hlen hne)
    exact ⟨t, hstep, henc, by rw [hdec, ← hpos]; rfl⟩

/-- Settles O41: the header's encoding is these 14 bytes, and there is room for them. -/
theorem encoderHeaderStep : Obligations.EncoderHeaderStep := by
  intro wrap e phase room
  rw [Enc.step, phase]
  exact Enc.emit_of_room room

end Sys2Proof.Machine
end

section
/-! Proofs for the family of 41_encoder: the run count, the decision of a chunk step with its bytes, and the end of
every encoder run. -/

namespace Sys2Proof.Machine

/-! ## The run count (R134) -/

/-- The `while` loop of R134 stops at `count`: it passes only existing pixels equal to `prev`, and stops at its cap, at
the end of the image, or before another color. -/
def Enc.RunEndsAt (e : Enc) (count : Nat) : Prop :=
  1 ≤ count ∧ count ≤ 62 ∧
    (∀ k : Nat, 1 ≤ k → k < count → e.pxPos + k < e.n ∧ e.pixel (e.pxPos + k) = e.prev) ∧
    (count = 62 ∨ e.n ≤ e.pxPos + count ∨ e.pixel (e.pxPos + count) ≠ e.prev)

theorem Enc.runEndsAt_runCount (e : Enc) : e.RunEndsAt e.runCount := by
  obtain ⟨hpos, hcap⟩ := e.runCount_bounds
  refine ⟨hpos, hcap, fun k hk => e.scan_covers hk, ?_⟩
  rcases Nat.eq_or_lt_of_le hcap with hmax | hlt
  · exact .inl hmax
  · have hstop := e.scan_stops 61 1 hlt
    rw [Decidable.not_and_iff_not_or_not, Nat.not_lt] at hstop
    exact .inr hstop

/-- Where the loop stops once it does not pass later. -/
theorem Enc.RunEndsAt.le {e : Enc} {m k : Nat} (hm : e.RunEndsAt m) (hk : e.RunEndsAt k) : k ≤ m := by
  obtain ⟨hpos, -, -, hstop⟩ := hm
  obtain ⟨-, hcap, hcovers, -⟩ := hk
  refine Nat.not_lt.1 fun hlt => ?_
  obtain ⟨hexists, hcolor⟩ := hcovers m hpos hlt
  obtain hmax | hend | hother := hstop
  · omega
  · omega
  · exact hother hcolor

theorem Enc.RunEndsAt.eq_runCount {e : Enc} {count : Nat} (h : e.RunEndsAt count) : count = e.runCount :=
  Nat.le_antisymm (e.runEndsAt_runCount.le h) (h.le e.runEndsAt_runCount)

/-! ## The bytes of a chunk (R82, R83, R141) -/

theorem ofNat_eq_ofInt {n : Nat} {v : Int} (h : (n : Int) = v) : BitVec.ofNat 8 n = BitVec.ofInt 8 v := by
  rw [← h, BitVec.ofInt_natCast]

/-- The byte of DIFF by the integers of R82. -/
theorem encode_diff_eq_ofInt {dr dg db : Int} (hr : -2 ≤ dr) (hg : -2 ≤ dg) (hb : -2 ≤ db) :
    encode (.diff dr dg db) = [BitVec.ofInt 8 (0x40 + 16 * (dr + 2) + 4 * (dg + 2) + (db + 2))] := by
  rw [encode, ofNat_eq_ofInt]
  simp only [biased, diffBias]
  omega

/-- The bytes of LUMA by the integers of R83. -/
theorem encode_luma_eq_ofInt {dg drDg dbDg : Int} (hg : -32 ≤ dg) (hr : -8 ≤ drDg) (hb : -8 ≤ dbDg) :
    encode (.luma dg drDg dbDg) =
      [BitVec.ofInt 8 (0x80 + (dg + 32)), BitVec.ofInt 8 (16 * (drDg + 8) + (dbDg + 8))] := by
  have hfirst : ((0x80 + biased lumaGBias dg : Nat) : Int) = 0x80 + (dg + 32) := by
    simp only [biased, lumaGBias]
    omega
  have hsecond : ((16 * biased lumaRbBias drDg + biased lumaRbBias dbDg : Nat) : Int) =
      16 * (drDg + 8) + (dbDg + 8) := by
    simp only [biased, lumaRbBias]
    omega
  rw [encode, ofNat_eq_ofInt hfirst, ofNat_eq_ofInt hsecond]

/-- A chunk that begins with FF decodes to RGBA, so it is the encoding of no other. -/
theorem encode_head_ne_FF {i : Instr} (kind : i.framing = .chunk) (wf : i.wellFormed = true) (hne : i ≠ .rgba) :
    (encode i).head? ≠ some 0xFF := by
  intro hhead
  obtain ⟨bs, hbs⟩ := List.head?_eq_some_iff.1 hhead
  have hdecode := decode_encode wf []
  have hrgba : decodeChunk (0xFF :: bs) = .ok (.rgba, bs) := rfl
  rw [kind, decode, List.append_nil, hbs, hrgba] at hdecode
  cases hdecode
  exact hne rfl

/-- Past the first byte of a chunk FF is a byte of RGB's pixel or the second byte of LUMA: no other has a second. -/
theorem rgb_or_luma_of_FF_mem {i : Instr} (kind : i.framing = .chunk) (hhead : (encode i).head? ≠ some 0xFF)
    (hmem : 0xFF ∈ encode i) : (∃ r g b, i = .rgb r g b) ∨ ∃ dg drDg dbDg, i = .luma dg drDg dbDg := by
  have single {b : Byte} (hb : encode i = [b]) : False := by
    rw [hb, List.mem_singleton] at hmem
    exact hhead (by rw [hb, hmem]; rfl)
  cases i with
  | index => exact (single rfl).elim
  | diff => exact (single rfl).elim
  | luma dg drDg dbDg => exact .inr ⟨dg, drDg, dbDg, rfl⟩
  | run => exact (single rfl).elim
  | rgb r g b => exact .inl ⟨r, g, b, rfl⟩
  | rgba => exact (single rfl).elim
  | hdr => exact nomatch kind
  | endMarker => exact nomatch kind

/-! ## The chunk step (R132 to R140, R146) -/

/-- Within four bytes of room a chunk is emitted whole, whatever it is (R89). -/
theorem Enc.emit_chunk_of_room {e : Enc} {i : Instr} (kind : i.framing = .chunk) (room : e.outPos + 4 ≤ e.out.len) :
    e.emit (encode i) =
      .next { e with out := e.out.store e.outPos (encode i), outPos := e.outPos + i.length } := by
  have hfour := Instr.length_le_four kind
  rw [Enc.emit_of_room (by rw [encode_length]; omega), encode_length]

/-- The decision of R133 in its order, its conditions written out. -/
theorem Enc.chunkStep_of_present (wrap : Bool) {e : Enc} {dr dg db : Int} (present : 3 * e.n ≤ e.pix.len)
    (hdr : dr = delta wrap e.cur.r e.prev.r) (hdg : dg = delta wrap e.cur.g e.prev.g)
    (hdb : db = delta wrap e.cur.b e.prev.b) :
    e.chunkStep wrap =
      if e.cur = e.prev then e.emitRun
      else if e.cache.fetch (pxHash e.cur) = e.cur then e.emitIndex
      else if (-2 ≤ dr ∧ dr ≤ 1) ∧ (-2 ≤ dg ∧ dg ≤ 1) ∧ (-2 ≤ db ∧ db ≤ 1) then e.emitDiff dr dg db
      else if (-32 ≤ dg ∧ dg ≤ 31) ∧ (-8 ≤ dr - dg ∧ dr - dg ≤ 7) ∧ (-8 ≤ db - dg ∧ db - dg ≤ 7) then
        e.emitLuma dr dg db
      else e.emitRgb := by
  subst hdr hdg hdb
  simp only [Enc.chunkStep, if_neg (Nat.not_lt.2 present), Enc.emitByDelta, pxEq_iff, fitsDiff_iff, fitsLuma_iff]

theorem Enc.present_of_chunkStep {wrap : Bool} {e t : Enc} (h : e.chunkStep wrap = .next t) :
    3 * e.n ≤ e.pix.len := by
  refine Nat.not_lt.1 fun hshort => ?_
  rw [Enc.chunkStep, if_pos hshort] at h
  exact nomatch h

theorem Enc.step_pixels (wrap : Bool) {e : Enc} (phase : e.phase = .pixels) (hlt : e.pxPos < e.n) :
    e.step wrap = e.chunkStep wrap := by
  simp only [Enc.step, phase, if_pos hlt]

/-- What a chunk step emits, and the pixels it consumes: `n` of one color, which `prev` then holds. -/
theorem Enc.Moves.chunk_of_pixels {e t : Enc} (h : e.Moves t) (phase : e.phase = .pixels) (hlt : e.pxPos < e.n) :
    (∃ i : Instr, i.framing = .chunk ∧ i.wellFormed = true ∧ i ≠ .rgba ∧
      t.out = e.out.store e.outPos (encode i) ∧ t.outPos = e.outPos + i.length) ∧
    t.prev = e.cur ∧
    ∃ n, 1 ≤ n ∧ t.pxPos = e.pxPos + n ∧ ∀ k, k < n → e.pixel (e.pxPos + k) = e.cur := by
  cases h with
  | header phase' => exact nomatch phase.symm.trans phase'
  | chunk i c n _ kind executable wf _ number _ color =>
    exact ⟨⟨i, kind, wf, executable, rfl, rfl⟩, rfl, n, number.1, rfl, color⟩
  | marker phase' =>
    obtain phase' | ⟨-, hge⟩ := phase'
    · exact nomatch phase.symm.trans phase'
    · exact absurd hlt hge

/-- After a chunk that is no RUN the slot of the pixel consumed holds it: INDEX found it there, the others wrote it. -/
theorem Enc.chunkStep_caches_cur {wrap : Bool} {e t : Enc} (h : e.chunkStep wrap = .next t) (hne : e.cur ≠ e.prev) :
    t.cache.fetch (pxHash e.cur) = e.cur := by
  rw [Enc.chunkStep_of_present wrap (Enc.present_of_chunkStep h) rfl rfl rfl, if_neg hne] at h
  split at h
  next hslot =>
    obtain ⟨-, rfl⟩ := Enc.emit_eq_next.1 h
    exact hslot
  split at h
  · obtain ⟨-, rfl⟩ := Enc.emit_eq_next.1 h
    exact Cache.fetch_store_same ..
  split at h
  · obtain ⟨-, rfl⟩ := Enc.emit_eq_next.1 h
    exact Cache.fetch_store_same ..
  · obtain ⟨-, rfl⟩ := Enc.emit_eq_next.1 h
    exact Cache.fetch_store_same ..

/-! ## A whole run (R143, R144) -/

theorem Enc.Finishes.n_eq {wrap : Bool} {k : Nat} {e t : Enc} (run : Enc.Finishes wrap k e t) : t.n = e.n := by
  induction run with
  | done => rfl
  | step next rest ih =>
    obtain ⟨hwidth, hheight⟩ := (Enc.step_moves next).size_eq
    rw [ih, Enc.loopTest_n, Enc.n, Enc.n, hwidth, hheight]

/-! ## The statements -/

/-- Settles O39: from its launch the encoder has `2 + N` steps left at most, and the invariant places its cursors at
DONE. -/
theorem encoderRunsEnd : Obligations.EncoderRunsEnd := by
  intro w h cs pix cap s0 s hdec hlaunch
  obtain ⟨-, hlen, -, hcap, rfl⟩ := State.launchEnc_eq_next.1 hlaunch
  have he := Enc.atLaunch_inv w h cs hlen hcap
  obtain ⟨k, t, run, hk⟩ := he.finishes Config.deltaWrap (by simp [Enc.atLaunch])
  obtain ⟨hdone, ht⟩ := run.ends he
  have hn : t.n = w.toNat * h.toNat := run.n_eq
  obtain ⟨-, hp⟩ := ht.resolve_left (by simp [hdone])
  obtain ⟨hpx, range⟩ := (Enc.placed_done hdone).1 hp
  obtain ⟨u, hruns, rfl⟩ := run.runs (s := { s0 with enc := _ }) hdec hk
  rw [hn] at hpx range
  exact ⟨u, hruns, hdone, hpx, range⟩

/-- Settles O42: the decision branch by branch, each with its bytes within the room; the count is the one at which the
scan stops. -/
theorem encoderChunkStep : Obligations.EncoderChunkStep := by
  intro wrap e cur dr dg db count phase hlt present room hcur hdr hdg hdb hpos hcap hcovers hstop
  obtain rfl : cur = e.cur := hcur
  have hcount : e.RunEndsAt count := ⟨hpos, hcap, hcovers, hstop⟩
  obtain rfl := hcount.eq_runCount
  rw [Enc.step_pixels wrap phase hlt, Enc.chunkStep_of_present wrap present hdr hdg hdb]
  split
  · exact Enc.emit_chunk_of_room rfl room
  split
  · exact Enc.emit_chunk_of_room rfl room
  split
  next hdiff =>
    obtain ⟨⟨hr, -⟩, ⟨hg, -⟩, hb, -⟩ := hdiff
    rw [← encode_diff_eq_ofInt hr hg hb]
    exact Enc.emit_chunk_of_room rfl room
  split
  next hluma =>
    obtain ⟨⟨hg, -⟩, ⟨hr, -⟩, hb, -⟩ := hluma
    rw [← encode_luma_eq_ofInt hg hr hb]
    exact Enc.emit_chunk_of_room rfl room
  · exact Enc.emit_chunk_of_room rfl room

/-- Settles O43: the scan passes only pixels equal to `prev` and stops only where the rule's loop does. -/
theorem runCountIsMaximal : Obligations.RunCountIsMaximal := Enc.runEndsAt_runCount

/-- Settles O45: the chunk emitted is not RGBA, and a chunk whose first byte is FF would decode to RGBA. -/
theorem encoderNeverEmitsRgba : Obligations.EncoderNeverEmitsRgba := by
  intro wrap e t phase hlt hstep
  obtain ⟨⟨i, kind, wf, hne, hout, hpos⟩, -⟩ := (Enc.step_moves hstep).chunk_of_pixels phase hlt
  have hhead := encode_head_ne_FF kind wf hne
  exact ⟨i, kind, wf, hne, hhead, rgb_or_luma_of_FF_mem kind hhead, hout, by rw [hpos, encode_length]⟩

/-- Settles O46: the pixels consumed are all of one color, which is the new `prev`. -/
theorem encoderKeepsPrevCached : Obligations.EncoderKeepsPrevCached := by
  intro wrap e t phase hlt hstep
  obtain ⟨-, hprev, n, hn, hpx, color⟩ := (Enc.step_moves hstep).chunk_of_pixels phase hlt
  rw [Enc.step_pixels wrap phase hlt] at hstep
  have hlast : t.pxPos - 1 = e.pxPos + (n - 1) := by omega
  rw [hprev, hlast, color (n - 1) (by omega)]
  exact ⟨rfl, Enc.chunkStep_caches_cur hstep⟩

/-- Settles O44: the marker's encoding is these 8 bytes, and there is room for them. -/
theorem encoderEndStep : Obligations.EncoderEndStep := by
  intro wrap e phase room
  rw [Enc.step, phase]
  exact Enc.emit_of_room room

end Sys2Proof.Machine
end

section
/-! Proofs for the family of 42_decoder: the end of every decoder run, what each instruction does and leaves unchanged,
and the errors of a chunk and of the end marker. -/

namespace Sys2Proof.Machine

/-! ## A whole run (R174, R262) -/

/-- How many steps a decoder run takes at most from here (R262): each chunk takes a pixel owed and a byte left. -/
def Dec.stepsLeft (d : Dec) : Nat :=
  match d.phase with
  | .idle => 0
  | .header => 2 + min (announcedPixels (d.input.window 0 d.input.len)) (d.input.len - 14)
  | .chunks => 1 + min (d.n - d.pxCount) (d.input.len - d.inPos)
  | .endMarker => 1
  | .done => 0
  | .fault => 0

/-- A decoder that dispatches something has a step left. -/
theorem Dec.stepsLeft_pos {d : Dec} {f : Framing} (hf : d.framing = some f) : 0 < d.stepsLeft := by
  cases phase : d.phase with
  | idle => simp [Dec.framing, phase] at hf
  | header => simp only [Dec.stepsLeft, phase]; omega
  | chunks => simp only [Dec.stepsLeft, phase]; omega
  | endMarker => simp [Dec.stepsLeft, phase]
  | done => simp [Dec.framing, phase] at hf
  | fault => simp [Dec.framing, phase] at hf

theorem Dec.loopTest_stepsLeft_of_fault {d : Dec} (phase : d.phase = .fault) : d.loopTest.stepsLeft = 0 := by
  simp only [Dec.stepsLeft, Dec.loopTest_fault phase]

theorem Dec.loopTest_stepsLeft_le {d : Dec} (phase : d.phase = .chunks) :
    d.loopTest.stepsLeft ≤ 1 + min (d.n - d.pxCount) (d.input.len - d.inPos) := by
  by_cases hlt : d.pxCount < d.n
  · simp [Dec.stepsLeft, Dec.loopTest_phase, phase, hlt]
  · simp [Dec.stepsLeft, Dec.loopTest_phase, phase, hlt]

/-- Executing what was fetched leaves fewer steps. -/
theorem Dec.Moves.stepsLeft_lt {i : Instr} {d t : Dec} {f : Framing} (h : d.Moves i t) (hf : d.framing = some f)
    (hi : d.fetch f = .ok i) : t.loopTest.stepsLeft < d.stepsLeft := by
  cases h with
  | raised k u => rw [Dec.loopTest_stepsLeft_of_fault rfl]; exact Dec.stepsLeft_pos hf
  | chunk cur c n framing kind count present room cache made emits number =>
    have phase := (Dec.framing_eq_chunk.1 framing).1
    have hn := (number (Dec.fetch_wellFormed hi)).1
    have hpos := Instr.length_pos i
    refine Nat.lt_of_le_of_lt (Dec.loopTest_stepsLeft_le phase) ?_
    simp only [Dec.stepsLeft, phase, Dec.n] at count ⊢
    omega
  | header w h ch cs instr phase =>
    rw [Dec.framing_eq_header.2 phase, Option.some.injEq] at hf
    subst hf instr
    obtain ⟨hcount, -⟩ := launch_of_headerSize (Dec.headerSize_of_fetch hi)
    refine Nat.lt_of_le_of_lt (Dec.loopTest_stepsLeft_le rfl) ?_
    simp only [Dec.stepsLeft, phase, hcount, Dec.n]
    omega
  | marker => rw [Dec.loopTest_of_ne (by simp)]; exact Dec.stepsLeft_pos hf

theorem Dec.loopTest_ne_idle {d : Dec} (h : d.phase ≠ .idle) : d.loopTest.phase ≠ .idle := by
  rw [Dec.loopTest_phase]
  split
  · simp
  · exact h

theorem Dec.Moves.ne_idle {i : Instr} {d t : Dec} (h : d.Moves i t) : t.phase ≠ .idle := by
  cases h with
  | raised => simp
  | chunk cur c n framing => simp [(Dec.framing_eq_chunk.1 framing).1]
  | header => simp
  | marker => simp

/-- A decoder step keeps the decoder's invariant, does not lead to IDLE, and leaves fewer steps. -/
theorem stepDec_progress {s t : State} (h : stepDec s = .next t) (hd : s.dec.Inv) :
    t.enc = s.enc ∧ t.dec.Inv ∧ t.dec.phase ≠ .idle ∧ t.dec.stepsLeft < s.dec.stepsLeft := by
  obtain ⟨f, hf, ⟨x, -, rfl⟩ | ⟨i, d, hi, hm, rfl⟩⟩ := stepDec_moves h
  · obtain ⟨hs, -⟩ := hd.resolve_left (Dec.ne_idle_of_framing hf)
    refine ⟨rfl, hs.raiseDecode_inv x, Dec.loopTest_ne_idle (by simp), ?_⟩
    rw [State.endDec_dec, Dec.loopTest_stepsLeft_of_fault (by simp)]
    exact Dec.stepsLeft_pos hf
  · exact ⟨rfl, hm.inv hf hi hd, Dec.loopTest_ne_idle hm.ne_idle, hm.stepsLeft_lt hf hi⟩

/-- A decoder past IDLE that dispatches nothing has finished. -/
theorem Dec.finished_of_framing {d : Dec} (hf : d.framing = none) (hidle : d.phase ≠ .idle) :
    d.phase = .done ∨ d.phase = .fault := by
  have hstop := Dec.framing_eq_none.1 hf
  cases phase : d.phase with
  | idle => exact absurd phase hidle
  | header => simp [Dec.running, phase] at hstop
  | chunks => simp [Dec.running, phase] at hstop
  | endMarker => simp [Dec.running, phase] at hstop
  | done => exact .inl rfl
  | fault => exact .inr rfl

/-- With the encoder at rest a decoder run ends within the steps it has left, in DONE or in FAULT. -/
theorem Dec.Inv.runs_end {s : State} {fuel : Nat} (hd : s.dec.Inv) (hidle : s.dec.phase ≠ .idle)
    (hrest : s.enc.running = false) (hk : s.dec.stepsLeft ≤ fuel) :
    ∃ t, State.runs fuel s = .next t ∧ t.dec.Inv ∧ (t.dec.phase = .done ∨ t.dec.phase = .fault) := by
  induction fuel generalizing s with
  | zero =>
    refine ⟨s, rfl, hd, Dec.finished_of_framing (Option.eq_none_iff_forall_ne_some.2 fun f hf => ?_) hidle⟩
    exact absurd hk (Nat.not_le.2 (Dec.stepsLeft_pos hf))
  | succ fuel ih =>
    by_cases running : s.dec.running = true
    · have hm := State.mover_dec hrest running
      obtain ⟨d, hnext⟩ := hd.step_completes running
      have hstep := stepDec_eq s
      rw [hnext, andThen_next] at hstep
      obtain ⟨henc, hd', hidle', hlt⟩ := stepDec_progress hstep hd
      rw [State.runs_of_step (by simp [hm]) ((step_of_mover_dec hm).trans hstep)]
      exact ih hd' hidle' (henc ▸ hrest) (by omega)
    · have hstop : s.dec.running = false := by simpa using running
      exact ⟨s, State.runs_of_finished (s.mover_running.2.2.2 ⟨hrest, hstop⟩) _, hd,
        Dec.finished_of_framing (Dec.framing_eq_none.2 hstop) hidle⟩

/-! ## Executing one instruction (R161, R164) -/

/-- An instruction whose framing is dispatched and whose bytes are present is its body. -/
theorem exec_of_body {i : Instr} {s : State} {d : Dec} (hf : s.dec.framing = some i.framing)
    (present : (if i.framing = .header then 0 else s.dec.inPos) + i.length ≤ s.dec.input.len)
    (hbody : Dec.body i s.dec = .next d) : exec i s = .next { s with dec := d } := by
  rw [exec_eq_dispatch, State.onDec, Dec.dispatch_of_ready hf present, hbody, andThen_next]

/-- All that an instruction can answer as a next state: a truncation error, or what its body answers. -/
theorem exec_eq_next {i : Instr} {s t : State} (h : exec i s = .next t) :
    t.dec = s.dec.raise .formatError .truncated ∨ Dec.body i s.dec = .next t.dec := by
  rw [exec_eq_dispatch] at h
  obtain ⟨d, hd, rfl⟩ := State.onDec_eq_next.1 h
  obtain ⟨-, rfl | ⟨-, hbody⟩⟩ := Dec.dispatch_eq_next hd
  · exact .inl rfl
  · exact .inr hbody

section
variable {i : Instr} {s : State}

theorem exec_of_undispatched (h : s.dec.framing ≠ some i.framing) : exec i s = .refused .notDispatched := by
  rw [exec_eq_dispatch, State.onDec, Dec.dispatch, if_neg h, andThen_refused]

theorem exec_chunk_of_body {d : Dec} (kind : i.framing = .chunk) (h : s.dec.inChunks)
    (present : s.dec.inPos + i.length ≤ s.dec.input.len) (hbody : Dec.body i s.dec = .next d) :
    exec i s = .next { s with dec := d } :=
  exec_of_body (kind ▸ Dec.framing_eq_chunk.2 h) (by simpa [kind] using present) hbody

/-- A chunk that is not wholly inside the input raises the error and does nothing else (R164). -/
theorem exec_chunk_of_starved (kind : i.framing = .chunk) (h : s.dec.starved i.length) :
    exec i s = .next { s with dec := s.dec.raise .formatError .truncated } := by
  obtain ⟨hchunks, missing⟩ := h
  rw [exec_eq_dispatch, State.onDec, Dec.dispatch_of_missing (kind ▸ Dec.framing_eq_chunk.2 hchunks)
    (by simpa [kind] using missing), andThen_next]

/-- A chunk that is ready makes its pixels (R171, R175). -/
theorem exec_chunk_of_produce {cur : Pixel} {c : Cache} {n : Nat} (kind : i.framing = .chunk)
    (h : s.dec.ready i.length (3 * n))
    (hbody : Dec.body i s.dec = Dec.produce cur n i.length { s.dec with cache := c }) :
    exec i s =
      .next
        { s with
          dec :=
            { s.dec with
              prev := cur, cache := c, pxCount := s.dec.pxCount + n, inPos := s.dec.inPos + i.length,
              out := s.dec.out.store s.dec.outPos (cur.repeated n), outPos := s.dec.outPos + 3 * n } } := by
  obtain ⟨hchunks, present, room⟩ := h
  exact exec_chunk_of_body kind hchunks present (hbody.trans (Dec.produce_of_room room))

end

/-- A decoder step whose instruction leaves CHUNKS ends there: the loop test changes nothing. -/
theorem stepDec_of_body_outside_chunks {i : Instr} {s : State} {d : Dec} (hf : s.dec.framing = some i.framing)
    (hi : s.dec.fetch i.framing = .ok i) (present : s.dec.fetchPos i.framing + i.length ≤ s.dec.input.len)
    (hbody : Dec.body i s.dec = .next d) (hphase : d.phase ≠ .chunks) :
    ∃ t, stepDec s = .next t ∧ t.enc = s.enc ∧ t.dec = d :=
  ⟨_, stepDec_of_body hf hi present hbody, rfl, Dec.loopTest_of_ne hphase⟩

/-! ## What an instruction leaves unchanged -/

section
variable {i : Instr} {d t : Dec}

/-- A move that leads to FAULT raises an error and does nothing else (R220). -/
theorem Dec.Moves.eq_raise (h : d.Moves i t) (hfault : t.phase = .fault) :
    ∃ k u, ErrKind.allows k u ∧ t = d.raise k u := by
  cases h with
  | raised k u allowed => exact ⟨k, u, allowed, rfl⟩
  | chunk cur c n framing => exact nomatch hfault.symm.trans (Dec.framing_eq_chunk.1 framing).1
  | header => exact nomatch hfault
  | marker => exact nomatch hfault

/-- Without a fault `out_pos` moves by what the instruction emits. -/
theorem Dec.Moves.outPos_eq (h : d.Moves i t) (hok : t.phase ≠ .fault) : t.outPos = d.outPos + emittedBytes i := by
  cases h with
  | raised => exact absurd rfl hok
  | chunk cur c n _ _ _ _ _ _ _ emits => exact congrArg (d.outPos + ·) emits
  | header w h ch cs instr => rw [instr]; rfl
  | marker instr => rw [instr]; rfl

theorem Dec.Moves.outPos_le (h : d.Moves i t) : t.outPos ≤ d.outPos + emittedBytes i := by
  by_cases hfault : t.phase = .fault
  · obtain ⟨k, u, -, rfl⟩ := h.eq_raise hfault
    exact Nat.le_add_right _ _
  · exact Nat.le_of_eq (h.outPos_eq hfault)

/-- Only HDR changes the header's fields (R113). -/
theorem Dec.Moves.fields_eq (h : d.Moves i t) (kind : i.framing ≠ .header) :
    t.width = d.width ∧ t.height = d.height ∧ t.channels = d.channels ∧ t.colorspace = d.colorspace := by
  cases h with
  | header w h ch cs instr => exact absurd (congrArg Instr.framing instr) kind
  | _ => exact ⟨rfl, rfl, rfl, rfl⟩

/-- Only a chunk changes `prev`, the cache and `px_count`. -/
theorem Dec.Moves.pixels_eq (h : d.Moves i t) (kind : i.framing ≠ .chunk) :
    t.prev = d.prev ∧ t.cache = d.cache ∧ t.pxCount = d.pxCount := by
  cases h with
  | chunk _ _ _ _ kind' => exact absurd kind' kind
  | _ => exact ⟨rfl, rfl, rfl⟩

/-- No slot but that of the new `prev` changes. -/
theorem Dec.Moves.fetch_eq (h : d.Moves i t) {j : Slot} (hj : j ≠ pxHash t.prev) :
    t.cache.fetch j = d.cache.fetch j := by
  cases h with
  | chunk cur c n _ _ _ _ _ cache =>
    obtain rfl | rfl := cache
    · rfl
    · exact Cache.fetch_store_other d.cache cur hj
  | _ => rfl

/-- Without a fault the fault registers stay, and a chunk leaves the phase. -/
theorem Dec.Moves.status_eq (h : d.Moves i t) (hok : t.phase ≠ .fault) :
    t.err = d.err ∧ t.errSub = d.errSub ∧ t.errPos = d.errPos ∧ (i.framing = .chunk → t.phase = d.phase) := by
  cases h with
  | raised => exact absurd rfl hok
  | chunk => exact ⟨rfl, rfl, rfl, fun _ => rfl⟩
  | header w h ch cs instr => exact ⟨rfl, rfl, rfl, fun kind => by rw [instr] at kind; exact nomatch kind⟩
  | marker instr => exact ⟨rfl, rfl, rfl, fun kind => by rw [instr] at kind; exact nomatch kind⟩

theorem ErrKind.allows.ne_none {k : ErrKind} {u : ErrSub} (h : k.allows u) : k ≠ .none := by
  obtain ⟨rfl, -⟩ | ⟨rfl, -⟩ := h
  · simp
  · simp

/-- Production writes no slot of its own. -/
theorem Dec.produce_prev_cache {cur : Pixel} {n len : Nat} (h : d.produce cur n len = .next t) :
    t.prev = cur ∧ t.cache = d.cache := by
  obtain ⟨-, rfl⟩ := Dec.emit_eq_next.1 h
  exact ⟨rfl, rfl⟩

end

/-- INDEX reads the cache and does not write it (R165). -/
theorem exec_index_cache {slot : Slot} {s t : State} (h : exec (.index slot) s = .next t) :
    t.dec.cache = s.dec.cache := by
  obtain hraise | hbody := exec_eq_next h
  · rw [hraise, Dec.raise_cache]
  · exact (Dec.produce_prev_cache hbody).2

/-- RUN leaves `prev` and the cache (R168). -/
theorem exec_run_prev_cache {count : Nat} {s t : State} (h : exec (.run count) s = .next t) :
    t.dec.prev = s.dec.prev ∧ t.dec.cache = s.dec.cache := by
  obtain hraise | hbody := exec_eq_next h
  · rw [hraise, Dec.raise_prev, Dec.raise_cache]
    exact ⟨rfl, rfl⟩
  · rw [Dec.body] at hbody
    split at hbody
    · rw [Host.Outcome.next.injEq] at hbody
      rw [← hbody, Dec.raise_prev, Dec.raise_cache]
      exact ⟨rfl, rfl⟩
    · exact Dec.produce_prev_cache hbody

/-! ## The pixels a chunk puts out (R171) -/

/-- A byte of a text stored in a well-formed buffer, by its place in the text. -/
theorem Buffer.read_store_of_getElem? {b : Buffer} (hb : b.wf = true) (a : Nat) {bs : List Byte} {k : Nat} {v : Byte}
    (h : bs[k]? = some v) : Memory.read (b.store a bs).mem (a + k) = v := by
  obtain ⟨hk, rfl⟩ := List.getElem?_eq_some_iff.1 h
  exact Buffer.read_store hb a bs hk

/-! ## The bytes at the cursor (R164, R172) -/

section
variable {d : Dec}

theorem Dec.fetch_of_decode_error {f : Framing} {x : DecodeError}
    (h : decode f (d.input.window (d.fetchPos f) f.window) = .error x) : d.fetch f = .error x := by
  rw [Dec.fetch, h]

/-- A chunk's window from its first byte on. -/
theorem Dec.chunk_window (h : d.inPos < d.input.len) :
    d.input.window (d.fetchPos .chunk) Framing.chunk.window =
      Memory.read d.input.mem d.inPos :: d.input.window (d.inPos + 1) 3 :=
  Buffer.window_cons 3 h

/-- With no byte at the cursor no chunk is fetched. -/
theorem Dec.fetch_chunk_of_past (h : d.input.len ≤ d.inPos) : d.fetch .chunk = .error .truncated :=
  Dec.fetch_of_decode_error (by rw [Dec.fetchPos, Buffer.window_past _ h]; rfl)

/-- A first byte of LUMA without its second. -/
theorem Dec.fetch_luma_of_short (h : d.inPos < d.input.len) (short : d.input.len ≤ d.inPos + 1)
    (hlo : 0x80 ≤ (Memory.read d.input.mem d.inPos).toNat) (hhi : (Memory.read d.input.mem d.inPos).toNat ≤ 0xBF) :
    d.fetch .chunk = .error .truncated := by
  apply Dec.fetch_of_decode_error
  rw [Dec.chunk_window h, decode, decodeChunk_luma hlo hhi, Buffer.window_past 3 short]
  rfl

theorem decodeRgb_of_short {bs : List Byte} (h : bs.length < 3) : decodeRgb bs = .error .truncated := by
  unfold decodeRgb
  split
  · simp only [List.length_cons] at h
    omega
  · rfl

/-- The tag of RGB without its three bytes. -/
theorem Dec.fetch_rgb_of_short (h : d.inPos < d.input.len) (short : d.input.len < d.inPos + 4)
    (tag : Memory.read d.input.mem d.inPos = 0xFE) : d.fetch .chunk = .error .truncated := by
  apply Dec.fetch_of_decode_error
  rw [Dec.chunk_window h, tag]
  exact decodeRgb_of_short (by rw [Buffer.window_length]; omega)

/-- The tag of RGBA is the whole of it. -/
theorem Dec.fetch_rgba (h : d.inPos < d.input.len) (tag : Memory.read d.input.mem d.inPos = 0xFF) :
    d.fetch .chunk = .ok .rgba := by
  rw [Dec.fetch, Dec.chunk_window h, tag]
  rfl

theorem decodeEnd_of_short {bs : List Byte} (h : bs.length < 8) : decodeEnd bs = .error .truncated := by
  unfold decodeEnd
  split
  · simp only [List.length_cons] at h
    omega
  · rfl

/-- Fewer than eight bytes are no end marker, whatever they are. -/
theorem Dec.fetch_end_of_short (h : d.input.len < d.inPos + 8) : d.fetch .endMarker = .error .truncated :=
  Dec.fetch_of_decode_error (decodeEnd_of_short (by rw [Buffer.window_length, Dec.fetchPos, Framing.window]; omega))

/-- A window whose bytes all exist, address by address. -/
theorem Buffer.window_eq_map {b : Buffer} {a n : Nat} (h : a + n ≤ b.len) :
    b.window a n = (List.range n).map fun k => Memory.read b.mem (a + k) := by
  apply List.ext_getElem
  · rw [Buffer.window_length, List.length_map, List.length_range]
    omega
  · intro k hk _
    rw [Buffer.window_getElem, List.getElem_map, List.getElem_range]

/-- The eight bytes of the end marker. -/
theorem Dec.fetch_end_of_marker (h : d.inPos + 8 ≤ d.input.len)
    (hgood : (List.range 8).map (fun k => Memory.read d.input.mem (d.inPos + k)) = Config.endMarker) :
    d.fetch .endMarker = .ok .endMarker := by
  rw [Dec.fetch, Dec.fetchPos, Framing.window, Buffer.window_eq_map h, hgood]
  rfl

/-- Eight other bytes. -/
theorem Dec.fetch_end_of_other (h : d.inPos + 8 ≤ d.input.len)
    (hbad : (List.range 8).map (fun k => Memory.read d.input.mem (d.inPos + k)) ≠ Config.endMarker) :
    d.fetch .endMarker = .error .badEndMarker := by
  apply Dec.fetch_of_decode_error
  rw [Dec.fetchPos, Framing.window, Buffer.window_eq_map h]
  exact if_neg hbad

end

/-! ## The statements -/

/-- Settles O38: a launch meets the invariant with `2 + min(N, in_len - 14)` steps left, and each step leaves fewer;
the invariant at DONE places `out_pos`. -/
theorem decoderRunsEnd : Obligations.DecoderRunsEnd := by
  intro bytes cap s0 s hrest hlaunch
  obtain ⟨-, -, hcap, rfl⟩ := State.launchDec_eq_next.1 hlaunch
  have hleft : (Dec.atLaunch (Buffer.ofBytes bytes) cap).stepsLeft =
      2 + min (announcedPixels bytes) (bytes.length - 14) := by
    simp only [Dec.stepsLeft, Dec.atLaunch, Buffer.ofBytes_len, Buffer.window_ofBytes]
  obtain ⟨t, hruns, ht, hend⟩ :=
    Dec.Inv.runs_end (s := { s0 with dec := _ }) (Dec.atLaunch_inv hcap) (by simp) hrest
      (Nat.le_of_eq hleft)
  refine ⟨t, hruns, hend.imp_left fun hdone => ⟨hdone, ?_⟩⟩
  obtain ⟨-, hp⟩ := ht.resolve_left (by simp [hdone])
  obtain ⟨-, -, hout, -⟩ := (Dec.placed_done hdone).1 hp
  exact hout

/-- Settles O19: along the moves of the decoder, each clause by the lemma that names it. -/
theorem execFrame : Obligations.ExecFrame := by
  intro i s t h
  obtain ⟨d, rfl, hm⟩ := exec_moves h
  have hout := hm.out_appended
  have hoth (a : Nat) (ha : a < s.dec.outPos ∨ s.dec.outPos + emittedBytes i ≤ a) :
      Memory.read d.out.mem a = Memory.read s.dec.out.mem a :=
    hout.read_outside (ha.imp_right (Nat.le_trans hm.outPos_le))
  refine ⟨rfl, rfl, hm.input_eq, hout.len_eq, hoth, hm.outPos_eq, hm.fields_eq, hm.pixels_eq, ?_, ?_,
    fun j => hm.fetch_eq, hm.status_eq, fun hfault => ?_⟩
  · rintro slot rfl
    exact exec_index_cache h
  · rintro count rfl
    exact (exec_run_prev_cache h).symm
  · obtain ⟨k, u, allowed, rfl⟩ := hm.eq_raise hfault
    exact ⟨rfl, allowed.ne_none⟩

/-- Settles O20: of the moves only that of a chunk is left, which stores its pixels at `out_pos`. -/
theorem chunkEmitsItsPixels : Obligations.ChunkEmitsItsPixels := by
  intro i s t h kind hok hwf
  obtain ⟨d, rfl, hm⟩ := exec_moves h
  cases hm with
  | raised => exact absurd rfl hok
  | chunk cur c n =>
    simp only [Nat.add_sub_cancel_left]
    refine ⟨trivial, fun k hk => ?_⟩
    obtain ⟨hr, hg, hb⟩ := cur.repeated_getElem? hk
    exact ⟨Buffer.read_store_of_getElem? hwf _ hr, Buffer.read_store_of_getElem? hwf _ hg,
      Buffer.read_store_of_getElem? hwf _ hb⟩
  | header w h ch cs instr => subst instr; exact nomatch kind
  | marker instr => subst instr; exact nomatch kind

/-- Settles O24: each way a chunk can be cut short fails the fetch; the tag of RGBA is fetched whole, and its body raises
the other error. -/
theorem chunkAvailability : Obligations.ChunkAvailability := by
  intro s hm hchunks
  have hf := Dec.framing_eq_chunk.2 hchunks
  rw [step_of_mover_dec hm]
  constructor
  · intro hcut
    have hfetch : s.dec.fetch .chunk = .error .truncated := by
      obtain hpast | ⟨hfirst, short, hlo, hhi⟩ | ⟨hfirst, short, tag⟩ := hcut
      · exact Dec.fetch_chunk_of_past (Nat.le_of_lt_succ hpast)
      · exact Dec.fetch_luma_of_short hfirst (Nat.le_of_lt_succ short) hlo hhi
      · exact Dec.fetch_rgb_of_short hfirst short tag
    exact stepDec_of_fetch_error hf hfetch
  · intro hfirst tag
    exact stepDec_of_body_outside_chunks (i := .rgba) hf (Dec.fetch_rgba hfirst tag) hfirst rfl (by simp)

/-- Settles O10: the body of INDEX is the production of the slot's pixel. -/
theorem indexChunk : Obligations.IndexChunk :=
  ⟨fun _ rest h => decodeChunk_index h rest, fun _ _ h => exec_chunk_of_produce (n := 1) rfl h rfl,
    fun _ i h => exec_chunk_of_starved (i := .index i) rfl h⟩

/-- Settles O11: the body of DIFF is the production of `prev` moved by the deltas, after its slot is written. -/
theorem diffChunk : Obligations.DiffChunk := by
  refine ⟨fun b0 rest hlo hhi => decodeChunk_diff hlo hhi rest, fun s dr dg db cur h hcur => ?_,
    fun s dr dg db h => exec_chunk_of_starved (i := .diff dr dg db) rfl h⟩
  obtain rfl : cur = s.dec.prev.moved dr dg db := hcur
  exact exec_chunk_of_produce (n := 1) rfl h rfl

/-- Settles O12: as DIFF, with red and blue moved by green's delta and their own. -/
theorem lumaChunk : Obligations.LumaChunk := by
  refine ⟨fun b0 b1 rest hlo hhi => (decodeChunk_luma hlo hhi _).trans (decodeLuma_cons b0 b1 rest),
    fun s dg drDg dbDg cur h hcur => ?_, fun s dg drDg dbDg h => exec_chunk_of_starved (i := .luma dg drDg dbDg) rfl h⟩
  rw [Int.add_assoc, Int.add_assoc] at hcur
  obtain rfl : cur = s.dec.prev.moved (dg + drDg) dg (dg + dbDg) := hcur
  exact exec_chunk_of_produce (n := 1) rfl h rfl

/-- Settles O13: a RUN within the pixels owed is the production of `prev`, and a longer one raises the error. -/
theorem runChunk : Obligations.RunChunk := by
  refine ⟨fun b0 rest hlo hhi => decodeChunk_run hlo hhi rest, fun s count h hle => ?_,
    fun s count hchunks present hlt => exec_chunk_of_body (i := .run count) rfl hchunks present (if_pos hlt),
    fun s count h => exec_chunk_of_starved (i := .run count) rfl h⟩
  rw [← Pixel.repeated_eq]
  exact exec_chunk_of_produce (i := .run count) rfl h (if_neg (Nat.not_lt.2 hle))

/-- Settles O14: the body of RGB is the production of the pixel given, after its slot is written. -/
theorem rgbChunk : Obligations.RgbChunk := by
  refine ⟨fun r g b rest => rfl, fun s cur h ha => ?_, fun s r g b h => exec_chunk_of_starved (i := .rgb r g b) rfl h⟩
  have hcur : ({ r := cur.r, g := cur.g, b := cur.b, a := s.dec.prev.a } : Pixel) = cur := by rw [← ha]
  exact exec_chunk_of_produce (i := .rgb cur.r cur.g cur.b) (n := 1) rfl h (by rw [Dec.body, hcur]; rfl)

/-- Settles O15: the tag decides, and the body of RGBA raises the error. -/
theorem rgbaChunk : Obligations.RgbaChunk :=
  ⟨fun _ => rfl, fun _ hchunks present => exec_chunk_of_body (i := .rgba) rfl hchunks present rfl⟩

/-- Settles O17: both places dispatch the end marker, whose body is the move stated. -/
theorem endMarkerUnit : Obligations.EndMarkerUnit := by
  intro s hplace present
  have hf : s.dec.framing = some (Instr.framing .endMarker) :=
    Dec.framing_eq_end.2 (hplace.imp_right fun ⟨phase, hle⟩ => ⟨phase, Nat.not_lt.2 hle⟩)
  exact exec_of_body hf present rfl

/-- Settles O18: the first test of every instruction is its dispatch. -/
theorem undispatchedInstructionIsRefused : Obligations.UndispatchedInstructionIsRefused :=
  fun _ _ h => exec_of_undispatched h

/-- Settles O25: the fetch tests the length, then the content; a good marker is executed. -/
theorem endMarkerStep : Obligations.EndMarkerStep := by
  intro s hm phase
  have hf := Dec.framing_eq_end.2 (.inl phase)
  rw [step_of_mover_dec hm]
  refine ⟨fun short => stepDec_of_fetch_error hf (Dec.fetch_end_of_short short),
    fun present hbad => stepDec_of_fetch_error hf (Dec.fetch_end_of_other present hbad), fun present hgood => ?_⟩
  exact stepDec_of_body_outside_chunks (i := .endMarker) hf (Dec.fetch_end_of_marker present hgood) present rfl (by simp)

end Sys2Proof.Machine
end

section
/-! Proofs for the family of 43_color_cache_and_arithmetic: the hash modulo 64, the two readings of the encoder's
channel difference, and the decoder's channel addition. -/

namespace Sys2Proof.Machine

/-! ## The decoder's channel addition (R199) -/

theorem addChannel_toNat (x : Byte) (d : Int) : ((addChannel x d).toNat : Int) = (x.toNat + d) % 256 := by
  rw [addChannel, wrap8, BitVec.toNat_ofInt]
  exact Int.toNat_of_nonneg (Int.emod_nonneg _ (by decide))

/-- Settles O7: the sum modulo 256 is at most one correction away while the sum is in -256..511. -/
theorem channelAdditionWraps : Obligations.ChannelAdditionWraps := by
  refine ⟨addChannel_toNat, fun x d hlo hhi => ?_, by decide⟩
  have hx := x.isLt
  rw [addChannel_toNat]
  refine ⟨by omega, by omega, ?_⟩
  split
  · omega
  split <;> omega

/-! ## The hash (R190, R193) -/

/-- Arithmetic of words of any width is arithmetic of naturals, reduced once at the end. -/
theorem wordHashSum_eq_ofNat (p : Pixel) (w : Nat) :
    3 * p.r.setWidth w + 5 * p.g.setWidth w + 7 * p.b.setWidth w + 11 * p.a.setWidth w =
      BitVec.ofNat w (3 * p.r.toNat + 5 * p.g.toNat + 7 * p.b.toNat + 11 * p.a.toNat) := by
  simp only [BitVec.ofNat_add, BitVec.ofNat_mul, BitVec.ofNat_toNat, BitVec.ofNat_eq_ofNat]

/-- Reducing modulo `2 ^ w` first changes nothing modulo 64. -/
theorem toNat_ofNat_mod_64 {w : Nat} (h : 6 ≤ w) (n : Nat) : (BitVec.ofNat w n).toNat % 64 = n % 64 := by
  rw [BitVec.toNat_ofNat]
  exact Nat.mod_mod_of_dvd n (Nat.pow_dvd_pow 2 h)

/-- The hash depends on each channel modulo 64 only. -/
theorem pxHash_congr {p q : Pixel} (hr : p.r.toNat % 64 = q.r.toNat % 64) (hg : p.g.toNat % 64 = q.g.toNat % 64)
    (hb : p.b.toNat % 64 = q.b.toNat % 64) (ha : p.a.toNat % 64 = q.a.toNat % 64) : pxHash p = pxHash q := by
  apply Fin.ext
  simp only [pxHash, Fin.val_ofNat]
  omega

theorem toNat_add_64_mod (x : Byte) : (x + 64).toNat % 64 = x.toNat % 64 := by
  rw [BitVec.toNat_add]
  have h64 : (64 : Byte).toNat = 64 := rfl
  omega

/-- Settles O5: the sum of words is the exact sum reduced modulo a multiple of 64, and so is a channel moved by 64. -/
theorem hashInAnyWidth : Obligations.HashInAnyWidth := by
  refine ⟨fun p => ⟨rfl, fun w hw => ?_, fun ha => ?_, ?_, ?_, ?_, ?_⟩, by decide⟩
  · rw [wordHashSum_eq_ofNat, toNat_ofNat_mod_64 hw]
    rfl
  · have h255 : p.a.toNat = 255 := by rw [ha]; rfl
    simp only [pxHash, Fin.val_ofNat, h255]
    omega
  · exact pxHash_congr (toNat_add_64_mod p.r) rfl rfl rfl
  · exact pxHash_congr rfl (toNat_add_64_mod p.g) rfl rfl
  · exact pxHash_congr rfl rfl (toNat_add_64_mod p.b) rfl
  · exact pxHash_congr rfl rfl rfl (toNat_add_64_mod p.a)

/-! ## The encoder's channel difference (R197) -/

theorem delta_false (x y : Byte) : delta false x y = (x.toNat : Int) - y.toNat := rfl

/-- The wrapping reading is the balanced remainder modulo 256. -/
theorem delta_true (x y : Byte) : delta true x y = ((x.toNat : Int) - y.toNat).bmod 256 := by
  simp only [delta, if_true, sext8, wrap8, BitVec.toInt_ofInt]
  rfl

theorem delta_self (x : Byte) : delta false x x = 0 := Int.sub_self _

/-- Either reading is the plain difference modulo 256. -/
theorem delta_emod (wrap : Bool) (x y : Byte) : delta wrap x y % 256 = ((x.toNat : Int) - y.toNat) % 256 := by
  cases wrap with
  | false => rfl
  | true => rw [delta_true]; exact Int.bmod_emod

/-- Where the plain difference fits a signed byte, wrapping does not change it. -/
theorem delta_true_eq_delta_false {x y : Byte} (h : -128 ≤ delta false x y ∧ delta false x y ≤ 127) :
    delta true x y = delta false x y := by
  obtain ⟨hlo, hhi⟩ := h
  rw [delta_true, ← delta_false]
  exact Int.bmod_eq_of_le hlo (Int.lt_add_one_of_le hhi)

/-- A step reads DELTA_WRAP only through the three differences of its chunk. -/
theorem Enc.step_true_eq_step_false {e : Enc}
    (hr : delta true e.cur.r e.prev.r = delta false e.cur.r e.prev.r)
    (hg : delta true e.cur.g e.prev.g = delta false e.cur.g e.prev.g)
    (hb : delta true e.cur.b e.prev.b = delta false e.cur.b e.prev.b) : e.step true = e.step false := by
  simp only [Enc.step, Enc.chunkStep, hr, hg, hb]

/-- A channel that moves by more than a signed byte is out of reach of RUN, DIFF and LUMA. -/
theorem Enc.chunkStep_index_or_rgb {e t : Enc} (h : e.chunkStep false = .next t)
    (far : ¬ ((-128 ≤ delta false e.cur.r e.prev.r ∧ delta false e.cur.r e.prev.r ≤ 127) ∧
        (-128 ≤ delta false e.cur.g e.prev.g ∧ delta false e.cur.g e.prev.g ≤ 127) ∧
        (-128 ≤ delta false e.cur.b e.prev.b ∧ delta false e.cur.b e.prev.b ≤ 127))) :
    e.emitIndex = .next t ∨ e.emitRgb = .next t := by
  have hne : e.cur ≠ e.prev := fun heq => far (by simp [heq, delta_self])
  rw [Enc.chunkStep_of_present false (Enc.present_of_chunkStep h) rfl rfl rfl, if_neg hne] at h
  split at h
  · exact .inl h
  rw [if_neg (by omega), if_neg (by omega)] at h
  exact .inr h

/-- Settles O6: the wrapping reading is a balanced remainder, a step sees the readings through its three differences
only, and a far channel leaves INDEX and RGB. -/
theorem deltaReadings : Obligations.DeltaReadings := by
  refine ⟨fun x y => ?_, fun e hr hg hb => ?_, fun e t phase hlt hstep far => ?_, by decide⟩
  · have hx := x.isLt
    have hy := y.isLt
    refine ⟨delta_false x y, ?_, ?_, ?_, ?_, ?_, fun wrap => ?_, fun hlo hhi => delta_true_eq_delta_false ⟨hlo, hhi⟩⟩
    · rw [delta_false]; omega
    · rw [delta_false]; omega
    · rw [delta_true]; exact Int.bmod_def _ _
    · rw [delta_true]; exact Int.le_bmod (by decide)
    · rw [delta_true]; exact Int.le_of_lt_add_one (Int.bmod_lt (by decide))
    · exact Int.emod_eq_emod_iff_emod_sub_eq_zero.1 (delta_emod wrap x y)
  · exact Enc.step_true_eq_step_false (delta_true_eq_delta_false hr) (delta_true_eq_delta_false hg)
      (delta_true_eq_delta_false hb)
  · rw [Enc.step_pixels false phase hlt] at hstep
    obtain hindex | hrgb := Enc.chunkStep_index_or_rgb hstep far
    · obtain ⟨-, rfl⟩ := Enc.emit_eq_next.1 hindex
      exact .inl rfl
    · obtain ⟨-, rfl⟩ := Enc.emit_eq_next.1 hrgb
      exact .inr rfl

end Sys2Proof.Machine
end

section
/-! Proofs for the family of 60_exceptions: what a step into FAULT writes, and that no step leads out of DONE or FAULT. -/

namespace Sys2Proof.Machine

/-! ## A step into FAULT (R220, R222) -/

/-- The loop test leads to no fault of its own. -/
theorem Dec.fault_of_loopTest {d : Dec} (h : d.loopTest.phase = .fault) : d.phase = .fault := by
  rw [Dec.loopTest_phase] at h
  split at h
  · exact nomatch h
  · exact h

/-- A decoder step that ends in FAULT raises an error of R212 and does nothing else. -/
theorem stepDec_eq_raise {s t : State} (h : stepDec s = .next t) (hfault : t.dec.phase = .fault) :
    ∃ k u, ErrKind.allows k u ∧ t.dec = s.dec.raise k u := by
  obtain ⟨f, -, ⟨x, -, rfl⟩ | ⟨i, d, -, hm, rfl⟩⟩ := stepDec_moves h
  · obtain ⟨u, allowed, hraise⟩ := s.dec.raiseDecode_eq_raise x
    exact ⟨_, u, allowed, (Dec.loopTest_of_ne (by simp)).trans hraise⟩
  · obtain ⟨k, u, allowed, rfl⟩ := hm.eq_raise (Dec.fault_of_loopTest hfault)
    exact ⟨k, u, allowed, Dec.loopTest_of_ne (d := s.dec.raise k u) (by simp)⟩

/-! ## Agents at rest (R131, R161, R224, R255) -/

theorem Enc.running_eq_false {e : Enc} : e.running = false ↔ e.phase = .idle ∨ e.phase = .done := by
  rw [Enc.running]
  cases e.phase with
  | _ => decide

theorem Dec.running_eq_false {d : Dec} :
    d.running = false ↔ d.phase = .idle ∨ d.phase = .done ∨ d.phase = .fault := by
  rw [Dec.running]
  cases d.phase with
  | _ => decide

/-- A step leaves alone whichever agent is at rest: only a running agent moves, and it writes its own registers. -/
theorem step_at_rest {s t : State} (h : step s = .next t) :
    (s.dec.running = false → t.dec = s.dec) ∧ (s.enc.running = false → t.enc = s.enc) := by
  obtain ⟨henc, hdec, -⟩ := s.mover_running
  obtain ⟨hm, h⟩ | ⟨hm, h⟩ := step_eq_next h
  · obtain ⟨e, -, rfl⟩ := stepEnc_moves h
    exact ⟨fun _ => rfl, fun hrest => absurd (henc hm) (by simp [hrest])⟩
  · rw [stepDec_eq, andThen_eq_next] at h
    obtain ⟨d, -, ⟨⟩⟩ := h
    exact ⟨fun hrest => absurd (hdec hm) (by simp [hrest]), fun _ => rfl⟩

/-! ## The statements -/

/-- Settles O26: only a decoder step changes the decoder's phase, and one that ends in FAULT is `Dec.raise`. -/
theorem faultsArePrecise : Obligations.FaultsArePrecise := by
  intro s t h hok hfault
  obtain ⟨-, h⟩ | ⟨-, h⟩ := step_eq_next h
  · obtain ⟨e, -, rfl⟩ := stepEnc_moves h
    exact absurd hfault hok
  · obtain ⟨k, u, allowed, hraise⟩ := stepDec_eq_raise h hfault
    rw [hraise]
    exact ⟨rfl, allowed⟩

/-- Settles O27: an agent in DONE or FAULT is at rest, so it does not move, and with both at rest no agent does. -/
theorem finishedRunsStayFinished : Obligations.FinishedRunsStayFinished := by
  refine ⟨fun s t h => ?_, fun s henc hdec => ?_⟩
  · obtain ⟨hdec, henc⟩ := step_at_rest h
    exact ⟨fun phase => hdec (Dec.running_eq_false.2 (.inr phase.symm)),
      fun phase => henc (Enc.running_eq_false.2 (.inr phase))⟩
  · have hm : s.mover = none :=
      s.mover_running.2.2.2 ⟨Enc.running_eq_false.2 henc, Dec.running_eq_false.2 hdec⟩
    rw [step, hm]

end Sys2Proof.Machine
end

section
/-! Proofs for the family of 70_reset_and_hazards: which launches are admitted and by which name the rest are refused,
and what the host gets back from a finished run. -/

namespace Sys2Proof.Machine

/-! ## The limit on the pixel count (R203) -/

/-- A limit admits every count it is not below; no limit admits them all. -/
theorem admitsPixels_eq_true {limit : Option Nat} {n : Nat} :
    admitsPixels limit n = true ↔ ∀ m, limit = some m → n ≤ m := by
  cases limit with
  | _ => simp [admitsPixels]

theorem admitsPixels_eq_false {limit : Option Nat} {n : Nat} :
    admitsPixels limit n = false ↔ ∃ m, limit = some m ∧ m < n := by
  cases limit with
  | _ => simp [admitsPixels]

/-! ## The encoder's refusals (R254, logs 6 and 16) -/

section
variable {limit : Option Nat} {w h : Word32} {cs : Byte} {pix : List Byte} {cap : Nat} {s : State}

theorem State.launchEncUnder_of_running (run : s.enc.running = true) :
    s.launchEncUnder limit w h cs pix cap = .refused .agentRunning := if_pos run

theorem State.launchEncUnder_of_length (rest : s.enc.running = false) (len : pix.length ≠ 3 * (w.toNat * h.toNat)) :
    s.launchEncUnder limit w h cs pix cap = .refused .pixLength := by
  rw [State.launchEncUnder, if_neg (by simp [rest]), if_pos len]

theorem State.launchEncUnder_of_limit (rest : s.enc.running = false) (len : pix.length = 3 * (w.toNat * h.toNat))
    (beyond : admitsPixels limit (w.toNat * h.toNat) = false) :
    s.launchEncUnder limit w h cs pix cap = .refused .maxPixels := by
  rw [State.launchEncUnder, if_neg (by simp [rest]), if_neg (by simp [len]), if_pos beyond]

theorem State.launchEncUnder_of_capacity (rest : s.enc.running = false) (len : pix.length = 3 * (w.toNat * h.toNat))
    (within : admitsPixels limit (w.toNat * h.toNat) = true) (small : cap < encCapacity (w.toNat * h.toNat)) :
    s.launchEncUnder limit w h cs pix cap = .refused .outCapacity := by
  rw [State.launchEncUnder, if_neg (by simp [rest]), if_neg (by simp [len]), if_neg (by simp [within]), if_pos small]

end

/-! ## The decoder's refusals (R254, logs 6 and 16) -/

section
variable {limit : Option Nat} {bytes : List Byte} {cap : Nat} {s : State}

theorem State.launchDecUnder_of_running (run : s.dec.running = true) :
    s.launchDecUnder limit bytes cap = .refused .agentRunning := if_pos run

theorem State.launchDecUnder_of_limit (rest : s.dec.running = false)
    (beyond : admitsPixels limit (announcedPixels bytes) = false) :
    s.launchDecUnder limit bytes cap = .refused .maxPixels := by
  rw [State.launchDecUnder, if_neg (by simp [rest]), if_pos beyond]

theorem State.launchDecUnder_of_capacity (rest : s.dec.running = false)
    (within : admitsPixels limit (announcedPixels bytes) = true) (small : cap < decCapacity bytes) :
    s.launchDecUnder limit bytes cap = .refused .outCapacity := by
  rw [State.launchDecUnder, if_neg (by simp [rest]), if_neg (by simp [within]), if_pos small]

end

/-! ## What a decoder launch reads from its input (R253, log 14) -/

/-- Fewer than 14 bytes announce no size. -/
theorem headerSize_of_short {bs : List Byte} (short : bs.length < 14) : headerSize bs = none := by
  unfold headerSize
  split
  · simp only [List.length_cons] at short
    omega
  · rfl

/-- So such an input announces no pixels and needs no capacity. -/
theorem launch_of_short {bs : List Byte} (short : bs.length < 14) : announcedPixels bs = 0 ∧ decCapacity bs = 0 := by
  rw [announcedPixels, decCapacity, headerSize_of_short short]
  exact ⟨rfl, rfl⟩

/-- The capacity of a host that has not read the header covers the one the launch asks for. -/
theorem decCapacity_le (bs : List Byte) : decCapacity bs ≤ 29 + 186 * (bs.length - 14) := by
  cases hsize : headerSize bs with
  | none => simp [decCapacity, hsize]
  | some size => exact (launch_of_headerSize hsize).2

/-! ## The used bytes of OUT (R9, R256) -/

/-- A window at the front of a buffer that has so many bytes. -/
theorem Buffer.window_zero {b : Buffer} {n : Nat} (fits : n ≤ b.len) :
    (b.window 0 n).length = n ∧
      ∀ (k : Nat) (hk : k < (b.window 0 n).length), (b.window 0 n)[k] = Memory.read b.mem k := by
  refine ⟨by rw [Buffer.window_length]; omega, fun k hk => ?_⟩
  rw [Buffer.window_getElem, Nat.zero_add]

/-! ## The statements -/

/-- Settles O50: one refusal lemma per condition, `State.launchDecUnder_eq_next` for the launches that remain, and the
two numbers read from the input with and without a whole header. -/
theorem decoderLaunchAdmission : Obligations.DecoderLaunchAdmission := by
  refine ⟨fun limit bytes cap s => ⟨State.launchDecUnder_of_running, fun rest beyond => ?_,
    fun rest within small => ?_, fun rest within room => ?_, decCapacity_le bytes, fun rest short => ?_⟩, ?_,
    fun _ _ _ => rfl⟩
  · exact State.launchDecUnder_of_limit rest (admitsPixels_eq_false.2 beyond)
  · exact State.launchDecUnder_of_capacity rest (admitsPixels_eq_true.2 within) small
  · exact ⟨_, State.launchDecUnder_eq_next.2 ⟨rest, admitsPixels_eq_true.2 within, room, rfl⟩⟩
  · obtain ⟨count, bound⟩ := launch_of_short short
    have within : admitsPixels limit (announcedPixels bytes) = true :=
      admitsPixels_eq_true.2 fun m _ => count ▸ Nat.zero_le m
    exact ⟨_, State.launchDecUnder_eq_next.2 ⟨rest, within, bound ▸ Nat.zero_le cap, rfl⟩⟩
  · rintro m0 m1 m2 m3 w0 w1 w2 w3 h0 h1 h2 h3 ch cs rest bytes w h rfl rfl rfl
    exact ⟨(launch_of_headerSize rfl).1, decCapacity_of_headerSize rfl⟩

/-- Settles O36: one refusal lemma per condition, and `State.launchEncUnder_eq_next` for the launches that remain. -/
theorem encoderLaunchAdmission : Obligations.EncoderLaunchAdmission := by
  refine ⟨fun limit w h cs pix cap s => ⟨State.launchEncUnder_of_running, State.launchEncUnder_of_length,
    fun rest len beyond => ?_, fun rest len within small => ?_, fun rest len within room => ?_⟩,
    fun _ _ _ _ _ _ => rfl⟩
  · exact State.launchEncUnder_of_limit rest len (admitsPixels_eq_false.2 beyond)
  · exact State.launchEncUnder_of_capacity rest len (admitsPixels_eq_true.2 within) small
  · exact ⟨_, State.launchEncUnder_eq_next.2 ⟨rest, len, admitsPixels_eq_true.2 within, room, rfl⟩⟩

/-- Settles O51: the result of each phase, with the used bytes of OUT as a window from its front. -/
theorem hostTakesResults : Obligations.HostTakesResults := by
  refine ⟨fun e => ⟨fun done fits => ?_, Enc.result_of_not_done⟩,
    fun d => ⟨fun done fits => ?_, Dec.result_of_fault, Dec.result_of_unfinished⟩⟩
  · obtain ⟨len, held⟩ := Buffer.window_zero fits
    exact ⟨_, Enc.result_of_done done, len, held⟩
  · obtain ⟨len, held⟩ := Buffer.window_zero fits
    exact ⟨_, Dec.result_of_done done, len, held, rfl, rfl, rfl, rfl, rfl⟩

end Sys2Proof.Machine
end
